-- ==== Sys2Proof/Word.lean ====
section
/-! DEFINITION. The word types of the Comp_Arch RISC core (00_scope.md R6, R8). -/

namespace Sys2Proof

/-- A register value, the pc, an address while it is computed, an instruction word: 32 bits (R6, R8). -/
abbrev Word := BitVec 32

/-- One byte of memory: 8 bits (R6, 20_memory.md R50). -/
abbrev Byte := BitVec 8

/-- A register number: a 5-bit field of the instruction word, so each one names a register (10_state.md R21). -/
abbrev RegNum := BitVec 5

end Sys2Proof
end

