-- ==== Sys2Proof/Config.lean ====
section
/-! DEFINITION. The parameters of the hardware (00_scope.md R6): TEXT_BASE, REGIONS and IMAGE.
Nothing else of this hardware is left to an implementation, and no value is free (93_implementation_defined.md Part 1). -/

namespace Sys2Proof

/-- A memory region `(begin, end)`: the addresses `a` with `begin <= a < end` (20_memory.md R51).
`lower` is the spec's `begin`, `upper` its `end`; `upper` may be 2^32, which no 32-bit word holds. -/
structure Region where
  lower : Nat
  upper : Nat
deriving DecidableEq, Repr

/-- The parameters a model takes as arguments (00_scope.md R6). No step changes them (10_state.md R20). -/
structure Config where
  /-- TEXT_BASE: the reset value of the pc and the base of the program image. -/
  textBase : Word
  /-- REGIONS: the memory regions. -/
  regions  : List Region
  /-- IMAGE: the words the loader writes at reset. -/
  image    : List Word
deriving DecidableEq, Repr

/-- The default TEXT_BASE and REGIONS of 20_memory.md R61 (text, data, stack), with no program.
DESIGN CHOICE (log entry 2): the empty IMAGE. -/
def Config.default : Config where
  textBase := 0x00400000#32
  regions  := [⟨0x00400000, 0x00500000⟩, ⟨0x10000000, 0x10100000⟩, ⟨0x7FF00000, 0x80000000⟩]
  image    := []

end Sys2Proof
end

