-- ==== Sys2Proof/Syntax.lean ====
section
/-! DEFINITION. The instructions as the Decoder delivers them (10_state.md R37, 30_encoding.md R81 to R92).
An instruction carries EVERY field of its format, the ignored ones too (R37: R-type `funct, rs, rt, rd, shamt`), so that
no bit of a word is lost by decoding it (log entry 4). -/

namespace Sys2Proof

/-- The fields of an R-type word (30_encoding.md R82). -/
structure RType where
  rs    : RegNum
  rt    : RegNum
  rd    : RegNum
  shamt : BitVec 5
deriving DecidableEq, Repr

/-- The fields of an I-type word (30_encoding.md R85). -/
structure IType where
  rs    : RegNum
  rt    : RegNum
  imm16 : BitVec 16
deriving DecidableEq, Repr

/-- The fields of a REGIMM word besides `branch_code` (30_encoding.md R83). -/
structure RegimmType where
  rs    : RegNum
  imm16 : BitVec 16
deriving DecidableEq, Repr

/-- The field of a J-type word (30_encoding.md R84). -/
structure JType where
  target26 : BitVec 26
deriving DecidableEq, Repr

/-- The Decoder's variant for every word outside the supported table (30_encoding.md R86). -/
structure Unsupported where
  raw    : Word
  opcode : BitVec 6
  funct  : BitVec 6
deriving DecidableEq, Repr

/-- A row of the opcode map: the words `w` with `w &&& mask = pattern` (30_encoding.md R89 to R92). -/
structure OpcodeRow where
  mnemonic : String
  pattern  : Word
  mask     : Word
deriving DecidableEq, Repr

/-- The 44 instructions, in the order of spec/opcode_table.json. -/
inductive Instr where
  | sll     (f : RType)       -- R131
  | srl     (f : RType)       -- R132
  | sra     (f : RType)       -- R133
  | jr      (f : RType)       -- R180
  | jalr    (f : RType)       -- R181
  | syscall (f : RType)       -- R190
  | mfhi    (f : RType)       -- R146
  | mthi    (f : RType)       -- R147
  | mflo    (f : RType)       -- R148
  | mtlo    (f : RType)       -- R149
  | mult    (f : RType)       -- R141
  | multu   (f : RType)       -- R142
  | div     (f : RType)       -- R144
  | divu    (f : RType)       -- R145
  | add     (f : RType)       -- R111
  | addu    (f : RType)       -- R112
  | sub     (f : RType)       -- R113
  | subu    (f : RType)       -- R114
  | and     (f : RType)       -- R121
  | or      (f : RType)       -- R122
  | xor     (f : RType)       -- R123
  | nor     (f : RType)       -- R124
  | slt     (f : RType)       -- R135
  | beq     (f : IType)       -- R171
  | bne     (f : IType)       -- R172
  | blez    (f : IType)       -- R173
  | bgtz    (f : IType)       -- R174
  | addi    (f : IType)       -- R115
  | addiu   (f : IType)       -- R116
  | slti    (f : IType)       -- R136
  | andi    (f : IType)       -- R125
  | ori     (f : IType)       -- R126
  | xori    (f : IType)       -- R127
  | lui     (f : IType)       -- R128
  | lb      (f : IType)       -- R156
  | lh      (f : IType)       -- R157
  | lw      (f : IType)       -- R158
  | sb      (f : IType)       -- R159
  | sh      (f : IType)       -- R160
  | sw      (f : IType)       -- R161
  | bltz    (f : RegimmType)  -- R175
  | bgez    (f : RegimmType)  -- R176
  | j       (f : JType)       -- R178
  | jal     (f : JType)       -- R179
deriving DecidableEq, Repr

end Sys2Proof
end

