-- ==== Sys2Proof/WellFormed.lean ====
section
/-! DEFINITION. The checks on syntax and on parameters that the types do not make by themselves.
An `Instr` needs none: each field has exactly its width of bits, every register number names a register
(10_state.md R21) and any value of an ignored field is accepted (30_encoding.md R93); so every `Instr` is well formed.
What is checked: an `Unsupported` record agrees with its word (R86); a region list is legal (20_memory.md R51); and,
because the spec's own notation writes programs down that way (R97), whether the ignored fields of an instruction are 0. -/

namespace Sys2Proof

/-- `opcode = raw[31:26]` and `funct = raw[5:0]` (30_encoding.md R86). -/
def Unsupported.wellFormed (u : Unsupported) : Bool :=
  u.opcode == u.raw.extractLsb' 26 6 && u.funct == u.raw.extractLsb' 0 6

/-- `begin < end <= 2^32` (20_memory.md R51). -/
def Region.wellFormed (r : Region) : Bool :=
  decide (r.lower < r.upper) && decide (r.upper ≤ 2 ^ 32)

/-- Two regions share no address (20_memory.md R51, "pairwise non-overlapping"). -/
def Region.disjoint (r q : Region) : Bool :=
  decide (r.upper ≤ q.lower) || decide (q.upper ≤ r.lower)

/-- Every region is legal and no two overlap (20_memory.md R51). -/
def Config.wellFormed (c : Config) : Bool :=
  c.regions.all Region.wellFormed && decide (c.regions.Pairwise fun r q => r.disjoint q = true)

/-- The same instruction with every field it ignores set to 0, the form in which the spec's notation writes it
(30_encoding.md R93, R97; the columns "fields ignored" of R89 and R90). -/
def Instr.clearIgnored : Instr → Instr
  | .sll f     => .sll { f with rs := 0#5 }
  | .srl f     => .srl { f with rs := 0#5 }
  | .sra f     => .sra { f with rs := 0#5 }
  | .jr f      => .jr { f with rt := 0#5, rd := 0#5, shamt := 0#5 }
  | .jalr f    => .jalr { f with rt := 0#5, shamt := 0#5 }
  | .syscall _ => .syscall ⟨0#5, 0#5, 0#5, 0#5⟩
  | .mfhi f    => .mfhi { f with rs := 0#5, rt := 0#5, shamt := 0#5 }
  | .mthi f    => .mthi { f with rt := 0#5, rd := 0#5, shamt := 0#5 }
  | .mflo f    => .mflo { f with rs := 0#5, rt := 0#5, shamt := 0#5 }
  | .mtlo f    => .mtlo { f with rt := 0#5, rd := 0#5, shamt := 0#5 }
  | .mult f    => .mult { f with rd := 0#5, shamt := 0#5 }
  | .multu f   => .multu { f with rd := 0#5, shamt := 0#5 }
  | .div f     => .div { f with rd := 0#5, shamt := 0#5 }
  | .divu f    => .divu { f with rd := 0#5, shamt := 0#5 }
  | .add f     => .add { f with shamt := 0#5 }
  | .addu f    => .addu { f with shamt := 0#5 }
  | .sub f     => .sub { f with shamt := 0#5 }
  | .subu f    => .subu { f with shamt := 0#5 }
  | .and f     => .and { f with shamt := 0#5 }
  | .or f      => .or { f with shamt := 0#5 }
  | .xor f     => .xor { f with shamt := 0#5 }
  | .nor f     => .nor { f with shamt := 0#5 }
  | .slt f     => .slt { f with shamt := 0#5 }
  | .beq f     => .beq f
  | .bne f     => .bne f
  | .blez f    => .blez { f with rt := 0#5 }
  | .bgtz f    => .bgtz { f with rt := 0#5 }
  | .addi f    => .addi f
  | .addiu f   => .addiu f
  | .slti f    => .slti f
  | .andi f    => .andi f
  | .ori f     => .ori f
  | .xori f    => .xori f
  | .lui f     => .lui { f with rs := 0#5 }
  | .lb f      => .lb f
  | .lh f      => .lh f
  | .lw f      => .lw f
  | .sb f      => .sb f
  | .sh f      => .sh f
  | .sw f      => .sw f
  | .bltz f    => .bltz f
  | .bgez f    => .bgez f
  | .j f       => .j f
  | .jal f     => .jal f

/-- Every ignored field is 0 (30_encoding.md R97). The hardware does not ask for it (R93). -/
def Instr.canonical (i : Instr) : Bool := i.clearIgnored == i

end Sys2Proof
end

