-- ==== Sys2Proof/Decode.lean ====
section
/-! DEFINITION. The Decoder (30_encoding.md R80 to R94), the encoder written from the same tables, the opcode map as
mask and pattern, and the byte order of a word (20_memory.md R55). -/

namespace Sys2Proof

/-! ### Byte order of a word (20_memory.md R53 to R55, 30_encoding.md R80) -/

/-- The word whose bytes are `b0` (lowest address, least significant) to `b3` (20_memory.md R53). -/
def wordOfBytes (b0 b1 b2 b3 : Byte) : Word := (b3 ++ b2 ++ b1 ++ b0).cast rfl

/-- Byte `k` of a word, `v[8k+7 : 8k]`: the byte stored at `a + k` (20_memory.md R54). -/
def byteOfWord (v : Word) (k : Nat) : Byte := v.extractLsb' (8 * k) 8

/-! ### Bit fields (30_encoding.md R81) -/

def opcodeField (raw : Word) : BitVec 6 := raw.extractLsb' 26 6
def rsField (raw : Word) : RegNum := raw.extractLsb' 21 5
def rtField (raw : Word) : RegNum := raw.extractLsb' 16 5
def branchCodeField (raw : Word) : BitVec 5 := raw.extractLsb' 16 5
def rdField (raw : Word) : RegNum := raw.extractLsb' 11 5
def shamtField (raw : Word) : BitVec 5 := raw.extractLsb' 6 5
def functField (raw : Word) : BitVec 6 := raw.extractLsb' 0 6
def imm16Field (raw : Word) : BitVec 16 := raw.extractLsb' 0 16
def target26Field (raw : Word) : BitVec 26 := raw.extractLsb' 0 26

def rTypeFields (raw : Word) : RType := ⟨rsField raw, rtField raw, rdField raw, shamtField raw⟩
def iTypeFields (raw : Word) : IType := ⟨rsField raw, rtField raw, imm16Field raw⟩
def regimmFields (raw : Word) : RegimmType := ⟨rsField raw, imm16Field raw⟩
def jTypeFields (raw : Word) : JType := ⟨target26Field raw⟩

/-! ### The selecting values (30_encoding.md R89 to R92) -/

/-- R-type instructions by `funct` (R89). -/
def rTypeTable : List (BitVec 6 × (RType → Instr)) :=
  [(0x00#6, .sll), (0x02#6, .srl), (0x03#6, .sra), (0x08#6, .jr), (0x09#6, .jalr), (0x0C#6, .syscall),
   (0x10#6, .mfhi), (0x11#6, .mthi), (0x12#6, .mflo), (0x13#6, .mtlo), (0x18#6, .mult), (0x19#6, .multu),
   (0x1A#6, .div), (0x1B#6, .divu), (0x20#6, .add), (0x21#6, .addu), (0x22#6, .sub), (0x23#6, .subu),
   (0x24#6, .and), (0x25#6, .or), (0x26#6, .xor), (0x27#6, .nor), (0x2A#6, .slt)]

/-- The entry of `rTypeTable` for `funct`, if there is one. -/
def rTypeOf (funct : BitVec 6) : Option (RType → Instr) := rTypeTable.lookup funct

/-- I-type instructions by `opcode` (R90). -/
def iTypeTable : List (BitVec 6 × (IType → Instr)) :=
  [(0x04#6, .beq), (0x05#6, .bne), (0x06#6, .blez), (0x07#6, .bgtz), (0x08#6, .addi), (0x09#6, .addiu),
   (0x0A#6, .slti), (0x0C#6, .andi), (0x0D#6, .ori), (0x0E#6, .xori), (0x0F#6, .lui), (0x20#6, .lb),
   (0x21#6, .lh), (0x23#6, .lw), (0x28#6, .sb), (0x29#6, .sh), (0x2B#6, .sw)]

/-- The entry of `iTypeTable` for `opcode`, if there is one. -/
def iTypeOf (opcode : BitVec 6) : Option (IType → Instr) := iTypeTable.lookup opcode

/-- REGIMM instructions by `branch_code` (R91); codes 2 to 31 are Unsupported (R87). -/
def regimmTable : List (BitVec 5 × (RegimmType → Instr)) :=
  [(0x00#5, .bltz), (0x01#5, .bgez)]

/-- The entry of `regimmTable` for `code`, if there is one. -/
def regimmOf (code : BitVec 5) : Option (RegimmType → Instr) := regimmTable.lookup code

/-- The `Unsupported` variant carries the word, its opcode and its funct bits, whatever the format (R86). -/
def unsupported (raw : Word) : Unsupported := ⟨raw, opcodeField raw, functField raw⟩

/-- The Decoder (R87): a total function of the word alone. -/
def decode (raw : Word) : Except Unsupported Instr :=
  if opcodeField raw = 0#6 then
    match rTypeOf (functField raw) with
    | some c => .ok (c (rTypeFields raw))
    | none   => .error (unsupported raw)
  else if opcodeField raw = 1#6 then
    match regimmOf (branchCodeField raw) with
    | some c => .ok (c (regimmFields raw))
    | none   => .error (unsupported raw)
  else if opcodeField raw = 2#6 then .ok (.j (jTypeFields raw))
  else if opcodeField raw = 3#6 then .ok (.jal (jTypeFields raw))
  else
    match iTypeOf (opcodeField raw) with
    | some c => .ok (c (iTypeFields raw))
    | none   => .error (unsupported raw)

/-- The Decoder on the four bytes of a word as memory holds them, lowest address first (R80). -/
def decodeBytes (b0 b1 b2 b3 : Byte) : Except Unsupported Instr := decode (wordOfBytes b0 b1 b2 b3)

/-! ### The encoder (30_encoding.md R82 to R85) -/

def encodeR (funct : BitVec 6) (f : RType) : Word :=
  (0#6 ++ f.rs ++ f.rt ++ f.rd ++ f.shamt ++ funct).cast rfl
def encodeI (opcode : BitVec 6) (f : IType) : Word := (opcode ++ f.rs ++ f.rt ++ f.imm16).cast rfl
def encodeRegimm (code : BitVec 5) (f : RegimmType) : Word := (1#6 ++ f.rs ++ code ++ f.imm16).cast rfl
def encodeJ (opcode : BitVec 6) (f : JType) : Word := (opcode ++ f.target26).cast rfl

/-- The word of an instruction (R89 to R92). -/
def encode : Instr → Word
  | .sll f     => encodeR 0x00#6 f
  | .srl f     => encodeR 0x02#6 f
  | .sra f     => encodeR 0x03#6 f
  | .jr f      => encodeR 0x08#6 f
  | .jalr f    => encodeR 0x09#6 f
  | .syscall f => encodeR 0x0C#6 f
  | .mfhi f    => encodeR 0x10#6 f
  | .mthi f    => encodeR 0x11#6 f
  | .mflo f    => encodeR 0x12#6 f
  | .mtlo f    => encodeR 0x13#6 f
  | .mult f    => encodeR 0x18#6 f
  | .multu f   => encodeR 0x19#6 f
  | .div f     => encodeR 0x1A#6 f
  | .divu f    => encodeR 0x1B#6 f
  | .add f     => encodeR 0x20#6 f
  | .addu f    => encodeR 0x21#6 f
  | .sub f     => encodeR 0x22#6 f
  | .subu f    => encodeR 0x23#6 f
  | .and f     => encodeR 0x24#6 f
  | .or f      => encodeR 0x25#6 f
  | .xor f     => encodeR 0x26#6 f
  | .nor f     => encodeR 0x27#6 f
  | .slt f     => encodeR 0x2A#6 f
  | .beq f     => encodeI 0x04#6 f
  | .bne f     => encodeI 0x05#6 f
  | .blez f    => encodeI 0x06#6 f
  | .bgtz f    => encodeI 0x07#6 f
  | .addi f    => encodeI 0x08#6 f
  | .addiu f   => encodeI 0x09#6 f
  | .slti f    => encodeI 0x0A#6 f
  | .andi f    => encodeI 0x0C#6 f
  | .ori f     => encodeI 0x0D#6 f
  | .xori f    => encodeI 0x0E#6 f
  | .lui f     => encodeI 0x0F#6 f
  | .lb f      => encodeI 0x20#6 f
  | .lh f      => encodeI 0x21#6 f
  | .lw f      => encodeI 0x23#6 f
  | .sb f      => encodeI 0x28#6 f
  | .sh f      => encodeI 0x29#6 f
  | .sw f      => encodeI 0x2B#6 f
  | .bltz f    => encodeRegimm 0x00#5 f
  | .bgez f    => encodeRegimm 0x01#5 f
  | .j f       => encodeJ 0x02#6 f
  | .jal f     => encodeJ 0x03#6 f

/-! ### The opcode map as masks and patterns (30_encoding.md R89 to R92, spec/opcode_table.json) -/

/-- The row of an instruction. -/
def Instr.row : Instr → OpcodeRow
  | .sll _     => ⟨"SLL", 0x00000000#32, 0xFC00003F#32⟩
  | .srl _     => ⟨"SRL", 0x00000002#32, 0xFC00003F#32⟩
  | .sra _     => ⟨"SRA", 0x00000003#32, 0xFC00003F#32⟩
  | .jr _      => ⟨"JR", 0x00000008#32, 0xFC00003F#32⟩
  | .jalr _    => ⟨"JALR", 0x00000009#32, 0xFC00003F#32⟩
  | .syscall _ => ⟨"SYSCALL", 0x0000000C#32, 0xFC00003F#32⟩
  | .mfhi _    => ⟨"MFHI", 0x00000010#32, 0xFC00003F#32⟩
  | .mthi _    => ⟨"MTHI", 0x00000011#32, 0xFC00003F#32⟩
  | .mflo _    => ⟨"MFLO", 0x00000012#32, 0xFC00003F#32⟩
  | .mtlo _    => ⟨"MTLO", 0x00000013#32, 0xFC00003F#32⟩
  | .mult _    => ⟨"MULT", 0x00000018#32, 0xFC00003F#32⟩
  | .multu _   => ⟨"MULTU", 0x00000019#32, 0xFC00003F#32⟩
  | .div _     => ⟨"DIV", 0x0000001A#32, 0xFC00003F#32⟩
  | .divu _    => ⟨"DIVU", 0x0000001B#32, 0xFC00003F#32⟩
  | .add _     => ⟨"ADD", 0x00000020#32, 0xFC00003F#32⟩
  | .addu _    => ⟨"ADDU", 0x00000021#32, 0xFC00003F#32⟩
  | .sub _     => ⟨"SUB", 0x00000022#32, 0xFC00003F#32⟩
  | .subu _    => ⟨"SUBU", 0x00000023#32, 0xFC00003F#32⟩
  | .and _     => ⟨"AND", 0x00000024#32, 0xFC00003F#32⟩
  | .or _      => ⟨"OR", 0x00000025#32, 0xFC00003F#32⟩
  | .xor _     => ⟨"XOR", 0x00000026#32, 0xFC00003F#32⟩
  | .nor _     => ⟨"NOR", 0x00000027#32, 0xFC00003F#32⟩
  | .slt _     => ⟨"SLT", 0x0000002A#32, 0xFC00003F#32⟩
  | .beq _     => ⟨"BEQ", 0x10000000#32, 0xFC000000#32⟩
  | .bne _     => ⟨"BNE", 0x14000000#32, 0xFC000000#32⟩
  | .blez _    => ⟨"BLEZ", 0x18000000#32, 0xFC000000#32⟩
  | .bgtz _    => ⟨"BGTZ", 0x1C000000#32, 0xFC000000#32⟩
  | .addi _    => ⟨"ADDI", 0x20000000#32, 0xFC000000#32⟩
  | .addiu _   => ⟨"ADDIU", 0x24000000#32, 0xFC000000#32⟩
  | .slti _    => ⟨"SLTI", 0x28000000#32, 0xFC000000#32⟩
  | .andi _    => ⟨"ANDI", 0x30000000#32, 0xFC000000#32⟩
  | .ori _     => ⟨"ORI", 0x34000000#32, 0xFC000000#32⟩
  | .xori _    => ⟨"XORI", 0x38000000#32, 0xFC000000#32⟩
  | .lui _     => ⟨"LUI", 0x3C000000#32, 0xFC000000#32⟩
  | .lb _      => ⟨"LB", 0x80000000#32, 0xFC000000#32⟩
  | .lh _      => ⟨"LH", 0x84000000#32, 0xFC000000#32⟩
  | .lw _      => ⟨"LW", 0x8C000000#32, 0xFC000000#32⟩
  | .sb _      => ⟨"SB", 0xA0000000#32, 0xFC000000#32⟩
  | .sh _      => ⟨"SH", 0xA4000000#32, 0xFC000000#32⟩
  | .sw _      => ⟨"SW", 0xAC000000#32, 0xFC000000#32⟩
  | .bltz _    => ⟨"BLTZ", 0x04000000#32, 0xFC1F0000#32⟩
  | .bgez _    => ⟨"BGEZ", 0x04010000#32, 0xFC1F0000#32⟩
  | .j _       => ⟨"J", 0x08000000#32, 0xFC000000#32⟩
  | .jal _     => ⟨"JAL", 0x0C000000#32, 0xFC000000#32⟩

/-- One instruction of each constructor: every entry of the tables of R89 to R91, then J and JAL. -/
def Instr.samples : List Instr :=
  let ofR := rTypeTable.map fun e => e.2 ⟨0#5, 0#5, 0#5, 0#5⟩
  let ofI := iTypeTable.map fun e => e.2 ⟨0#5, 0#5, 0#16⟩
  let ofB := regimmTable.map fun e => e.2 ⟨0#5, 0#16⟩
  List.append ofR (List.append ofI (List.append ofB [.j ⟨0#26⟩, .jal ⟨0#26⟩]))

/-- The 44 rows. -/
def opcodeTable : List OpcodeRow := Instr.samples.map Instr.row

/-! ### The host's view of the decoder -/

/-- The instruction the Decoder reads from the word whose low `nbits` bits are those of `w`, laid out in bytes as
memory stores it (30_encoding.md R80). -/
def decodeTableWord (nbits w : Nat) : Option Instr :=
  let v : Word := BitVec.ofNat 32 (w % 2 ^ nbits)
  match decodeBytes (byteOfWord v 0) (byteOfWord v 1) (byteOfWord v 2) (byteOfWord v 3) with
  | .ok i    => some i
  | .error _ => none

end Sys2Proof
end

