-- ==== Sys2Proof/Machine/State.lean ====
section
/-! DEFINITION. The state of the machine (10_state.md R20 to R36), its reset value (R41), and the reasons a step can stop. -/

namespace Sys2Proof.Machine

/-- Memory: the bytes that differ from what an unlisted address reads as, addresses rising (Memory.wf of Ops.lean). -/
abbrev Memory := List Host.Cell

/-- DOC0's ArchitecturalState `{pc, regs, hi, lo}` (10_state.md R20). -/
structure Arch where
  pc   : Word
  regs : Vector Word 32
  hi   : Word
  lo   : Word
deriving DecidableEq, Repr

/-- `Status` (10_state.md R31). -/
inductive Status where
  | running
  | halted
deriving DecidableEq, Repr

/-- A record of the fault log (10_state.md R33, 60_exceptions.md R201, R202): the address of the word and the word. -/
inductive FaultRecord where
  | unimplementedInstruction (pc raw : Word)
  | arithmeticFault (pc raw : Word)
deriving DecidableEq, Repr

/-- The whole machine (10_state.md R20). -/
structure State where
  /-- The snapshot an instruction reads (R34). -/
  current          : Arch
  /-- The snapshot an instruction writes, equal to `current` at every cycle boundary (R20, R34). -/
  next             : Arch
  /-- One byte for each mapped address (R35). -/
  mem              : Memory
  status           : Status
  /-- 64 bits, wrapping (R32). -/
  instructionCount : BitVec 64
  /-- Oldest first (R33). -/
  faultLog         : List FaultRecord
  /-- The parameters TEXT_BASE, REGIONS and IMAGE (00_scope.md R6); no step changes them. The model's own field (log entry 1). -/
  config           : Config
deriving DecidableEq, Repr

/-- The reasons a step can stop with a fault: NONE. Every condition this hardware calls a fault leads to a next state
(00_scope.md R13, 60_exceptions.md R200), so there is no constructor (log entry 8; safe: nothing is left out). -/
inductive Fault
deriving DecidableEq, Repr

/-- The reasons a step can refuse an instruction. -/
inductive Refusal where
  /-- Raised by `exec` for an instruction that has no meaning yet: by none in this model. Safe: the machine only stops. -/
  | notModelled (mnemonic : String)
deriving DecidableEq, Repr

/-- The snapshot at reset (10_state.md R41): every register 0, pc at TEXT_BASE. -/
def Arch.reset (textBase : Word) : Arch where
  pc   := textBase
  regs := Vector.replicate 32 0#32
  hi   := 0#32
  lo   := 0#32

/-- Steps (1) to (3) of the reset sequence (70_reset_and_hazards.md R230): everything but the load of the image. -/
def State.blank (c : Config) : State where
  current          := Arch.reset c.textBase
  next             := Arch.reset c.textBase
  mem              := []
  status           := .running
  instructionCount := 0#64
  faultLog         := []
  config           := c

/-- The machine right after reset (10_state.md R41) with the default parameters and an empty IMAGE (log entry 2). -/
def State.reset : State := State.blank Config.default

end Sys2Proof.Machine
end

