-- ==== Sys2Proof/Machine/Ops.lean ====
section
/-! DEFINITION. The named operations over registers, memory, the two snapshots and the fault log. -/

namespace Sys2Proof.Machine

/-! ### Registers (10_state.md R21, R22, 00_scope.md R10) -/

/-- The storage of `regs[i]`. -/
def Arch.cell (a : Arch) (i : RegNum) : Word := a.regs[i.toNat]'i.isLt

/-- `x[i]` read: register 0 is 0 (R10, R22). -/
def Arch.reg (a : Arch) (i : RegNum) : Word := if i = 0#5 then 0#32 else a.cell i

/-- `x[i] <- v`: a write to register 0 is discarded (R10, R22). -/
def Arch.setReg (a : Arch) (i : RegNum) (v : Word) : Arch :=
  if i = 0#5 then a else { a with regs := a.regs.set i.toNat v i.isLt }

def Arch.setPc (a : Arch) (v : Word) : Arch := { a with pc := v }
def Arch.setHi (a : Arch) (v : Word) : Arch := { a with hi := v }
def Arch.setLo (a : Arch) (v : Word) : Arch := { a with lo := v }

/-- The default pc rule: `pc <- pc + 4`, modulo 2^32 (R26, R28). -/
def Arch.advance (a : Arch) : Arch := a.setPc (a.pc + 4#32)

/-- `x[i]` of the current snapshot, which every instruction reads (00_scope.md R10). -/
def State.x (s : State) (i : RegNum) : Word := s.current.reg i

/-! ### Memory as bytes (20_memory.md R50, R53, R54) -/

/-- What a byte that memory does not list reads as: memory is zero-filled (10_state.md R41). -/
abbrev Memory.unlisted : Byte := 0#8

/-- The canonical form: addresses strictly rising, no entry equal to what an unlisted address reads as. -/
abbrev Memory.wf (m : Memory) : Prop :=
  m.Pairwise (fun c d => c.1 < d.1) ∧ ∀ c ∈ m, c.2 ≠ Memory.unlisted

/-- `B(a)`, the byte stored at `a` (R53). -/
def Memory.byte (m : Memory) (a : Nat) : Byte :=
  match m with
  | []          => Memory.unlisted
  | (b, v) :: m => if b = a then v else Memory.byte m a

/-- The list with `v` at the front under the address `a`, or without it where `a` would read as `v` unlisted. -/
def Memory.consByte (a : Nat) (v : Byte) (m : Memory) : Memory :=
  if v = Memory.unlisted then m else (a, v) :: m

/-- `B(a) <- v` (R54), keeping the canonical form. -/
def Memory.setByte (m : Memory) (a : Nat) (v : Byte) : Memory :=
  match m with
  | []          => Memory.consByte a v []
  | (b, w) :: m =>
    if a < b then Memory.consByte a v ((b, w) :: m)
    else if a = b then Memory.consByte a v m
    else (b, w) :: Memory.setByte m a v

/-! ### The bus (20_memory.md R51 to R59) -/

/-- All four bytes `a` to `a + 3` lie in the region, the sum taken in the integers (R52). -/
def Region.admits (r : Region) (a : Word) : Bool :=
  decide (r.lower ≤ a.toNat) && decide (a.toNat + 4 ≤ r.upper)

/-- `Mapped4(a)` (R52). -/
def mapped4 (c : Config) (a : Word) : Bool := c.regions.any fun r => Region.admits r a

/-- The four bytes at `a`, least significant first. -/
def Memory.word (m : Memory) (a : Nat) : Word :=
  wordOfBytes (m.byte a) (m.byte (a + 1)) (m.byte (a + 2)) (m.byte (a + 3))

/-- The four bytes at `a` set to those of `v`, least significant first. -/
def Memory.setWord (m : Memory) (a : Nat) (v : Word) : Memory :=
  (((m.setByte a (byteOfWord v 0)).setByte (a + 1) (byteOfWord v 1)).setByte (a + 2) (byteOfWord v 2)).setByte
    (a + 3) (byteOfWord v 3)

/-- `Read32(a)`: 0 where the access is not admitted (R53, R59). No alignment check (R56). -/
def read32 (c : Config) (m : Memory) (a : Word) : Word := if mapped4 c a then m.word a.toNat else 0#32

/-- `Write32(a, v)`: dropped where the access is not admitted (R54, R59). No alignment check (R56). -/
def write32 (c : Config) (m : Memory) (a v : Word) : Memory := if mapped4 c a then m.setWord a.toNat v else m

/-! ### The load-store unit (20_memory.md R57) -/

/-- `MemRead(a, 1)`. -/
def memRead1 (c : Config) (m : Memory) (a : Word) : Byte := (read32 c m a).extractLsb' 0 8
/-- `MemRead(a, 2)`. -/
def memRead2 (c : Config) (m : Memory) (a : Word) : BitVec 16 := (read32 c m a).extractLsb' 0 16
/-- `MemRead(a, 4)`. -/
def memRead4 (c : Config) (m : Memory) (a : Word) : Word := read32 c m a
/-- `MemWrite(a, 1, v)`: read-modify-write of the word at `a`. -/
def memWrite1 (c : Config) (m : Memory) (a : Word) (v : Byte) : Memory :=
  write32 c m a (((read32 c m a).extractLsb' 8 24 ++ v).cast rfl)
/-- `MemWrite(a, 2, v)`: read-modify-write of the word at `a`. -/
def memWrite2 (c : Config) (m : Memory) (a : Word) (v : BitVec 16) : Memory :=
  write32 c m a (((read32 c m a).extractLsb' 16 16 ++ v).cast rfl)
/-- `MemWrite(a, 4, v)`. -/
def memWrite4 (c : Config) (m : Memory) (a v : Word) : Memory := write32 c m a v

/-! ### The cycle (10_state.md R34, R43) -/

/-- Step 2, fetch: `Read32(current.pc)`. -/
def fetch (s : State) : Word := read32 s.config s.mem s.current.pc

/-- The `next` snapshot as execute finds it: `current` with the default pc (R34, R26). -/
def State.begin (s : State) : Arch := s.current.advance

/-- The end of execute: `next` holds what the instruction wrote. -/
def State.withNext (s : State) (a : Arch) : State := { s with next := a }

def State.withMem (s : State) (m : Memory) : State := { s with mem := m }

def State.withStatus (s : State) (t : Status) : State := { s with status := t }

/-- Step 6, commit: `current <- next`, all fields at once, and the counter incremented, wrapping (R32, R34). -/
def commit (s : State) : State := { s with current := s.next, instructionCount := s.instructionCount + 1#64 }

/-- Step 6 after an execute that answered a next state. -/
def commitOutcome (o : Host.Outcome State Fault Refusal) : Host.Outcome State Fault Refusal :=
  match o with
  | .next s    => .next (commit s)
  | .fault r   => .fault r
  | .refused r => .refused r

/-! ### Faults (10_state.md R33, 60_exceptions.md R200 to R208): this hardware's whole exception entry (R207) -/

/-- A record is appended to the fault log, oldest first (R33). -/
def State.record (s : State) (r : FaultRecord) : State := { s with faultLog := s.faultLog ++ [r] }

/-- `raise UnimplementedInstruction(pc, raw)`: the record, and `Status <- Halted`; nothing else changes and the cycle does
not commit (R43 step 4, R191, R201). -/
def raiseUnimplemented (s : State) (raw : Word) : State :=
  (s.record (.unimplementedInstruction s.current.pc raw)).withStatus .halted

/-- `record ArithmeticFault(pc, raw)`: the record only (R202). -/
def recordArithmetic (s : State) (raw : Word) : State := s.record (.arithmeticFault s.current.pc raw)

/-! ### What an instruction answers: the shapes the meanings share -/

/-- `x[d] <- v; pc <- pc + 4`. -/
def answerReg (s : State) (d : RegNum) (v : Word) : Host.Outcome State Fault Refusal :=
  .next (s.withNext (s.begin.setReg d v))

/-- `HI <- h; LO <- l; pc <- pc + 4`. -/
def answerHiLo (s : State) (h l : Word) : Host.Outcome State Fault Refusal :=
  .next (s.withNext ((s.begin.setHi h).setLo l))

/-- `pc <- target` if `taken`, else `pc <- pc + 4` (R26). -/
def answerBranch (s : State) (taken : Bool) (target : Word) : Host.Outcome State Fault Refusal :=
  .next (s.withNext (if taken then s.begin.setPc target else s.begin))

/-- `x[d] <- v; pc <- target`, both from the state before the instruction (45_branch_jump.md R177). -/
def answerLink (s : State) (d : RegNum) (v target : Word) : Host.Outcome State Fault Refusal :=
  .next (s.withNext ((s.begin.setReg d v).setPc target))

/-- The bus written (it is not double buffered, R34); `pc <- pc + 4`. -/
def answerMem (s : State) (m : Memory) : Host.Outcome State Fault Refusal :=
  .next ((s.withMem m).withNext s.begin)

end Sys2Proof.Machine
end

