-- ==== Sys2Proof/Machine/Operands.lean ====
section
/-! DEFINITION. The operand forms (30_encoding.md R88) and the addresses computed from them. -/

namespace Sys2Proof.Machine

/-- `sext_32` of a narrower value: the one sign extension of the machine (00_scope.md R9). -/
def sext32 {w : Nat} (v : BitVec w) : Word := v.signExtend 32

/-- `zext_32` of a narrower value: the one zero extension of the machine (00_scope.md R9). -/
def zext32 {w : Nat} (v : BitVec w) : Word := v.zeroExtend 32

/-- The arithmetic immediate and the load or store offset: `sext_32(imm16)` (R88). -/
def signedImm (imm : BitVec 16) : Word := sext32 imm

/-- The logical immediate: `zext_32(imm16)` (R88, 41_logical.md R120). -/
def logicalImm (imm : BitVec 16) : Word := zext32 imm

/-- The upper immediate: `imm16 ++ 0x0000` (R88, 41_logical.md R128). -/
def upperImm (imm : BitVec 16) : Word := (imm ++ 0#16).cast rfl

/-- The effective address `x[rs] + sext_32(imm16)`, modulo 2^32 (44_load_store.md R155, 20_memory.md R68). -/
def effectiveAddress (s : State) (f : IType) : Word := s.x f.rs + signedImm f.imm16

/-- The branch target `pc + 4 + (sext_32(imm16) << 2)`, modulo 2^32 (45_branch_jump.md R170, 10_state.md R28). -/
def branchTarget (pc : Word) (imm : BitVec 16) : Word := pc + 4#32 + (sext32 imm <<< 2)

/-- The jump target `pc[31:28] ++ target26 ++ 0b00`, `pc` the address of the jump itself (45_branch_jump.md R177). -/
def jumpTarget (pc : Word) (target : BitVec 26) : Word :=
  (pc.extractLsb' 28 4 ++ target ++ 0#2).cast rfl

/-- The link value `pc + 4`, modulo 2^32 (45_branch_jump.md R177). -/
def linkValue (pc : Word) : Word := pc + 4#32

/-- The register JAL links to (45_branch_jump.md R179, 10_state.md R23). -/
def linkReg : RegNum := 31#5

/-- The register SYSCALL reads, `v0` (46_system.md R190, 10_state.md R23). -/
def serviceReg : RegNum := 2#5

end Sys2Proof.Machine
end

