-- ==== Sys2Proof/Machine/Flags.lean ====
section
/-! DEFINITION. The hardware has NO flags (10_state.md R30): no carry, overflow, zero or negative flag exists and none is
computed. What takes their place are the conditions below, each computed from register values and consumed at once, by a
branch or by SLT and SLTI. -/

namespace Sys2Proof.Machine

/-- `s32(a) < s32(b)`, on the exact integers (42_shift_compare.md R134, R135). -/
def lessSigned (a b : Word) : Bool := decide (a.toInt < b.toInt)

/-- The result of a comparison: exactly 0 or 1 (42_shift_compare.md R134). -/
def setWord (c : Bool) : Word := if c then 1#32 else 0#32

/-- `a == b` (45_branch_jump.md R171). -/
def condEq (a b : Word) : Bool := decide (a = b)

/-- `a != b` (45_branch_jump.md R172). -/
def condNe (a b : Word) : Bool := decide (a ≠ b)

/-- `s32(a) <= 0` (45_branch_jump.md R173). -/
def condLez (a : Word) : Bool := decide (a.toInt ≤ 0)

/-- `s32(a) > 0` (45_branch_jump.md R174). -/
def condGtz (a : Word) : Bool := decide (a.toInt > 0)

/-- `s32(a) < 0` (45_branch_jump.md R175). -/
def condLtz (a : Word) : Bool := decide (a.toInt < 0)

/-- `s32(a) >= 0` (45_branch_jump.md R176). -/
def condGez (a : Word) : Bool := decide (a.toInt ≥ 0)

/-- The service code that halts: all 32 bits of register 2 equal to 10 (46_system.md R190). -/
def condHaltService (v : Word) : Bool := decide (v = 10#32)

end Sys2Proof.Machine
end

