-- ==== Sys2Proof/Machine/Arithmetic.lean ====
section
/-! DEFINITION. Add and subtract (40_arithmetic.md R110 to R116): modulo 2^32, no trap, no flag. -/

namespace Sys2Proof.Machine

/-- ADD (R111). -/
def execAdd (f : RType) (s : State) : Host.Outcome State Fault Refusal := answerReg s f.rd (s.x f.rs + s.x f.rt)

/-- ADDU (R112): the same function as ADD (R110). -/
def execAddu (f : RType) (s : State) : Host.Outcome State Fault Refusal := answerReg s f.rd (s.x f.rs + s.x f.rt)

/-- SUB (R113): the minuend is `rs`. -/
def execSub (f : RType) (s : State) : Host.Outcome State Fault Refusal := answerReg s f.rd (s.x f.rs - s.x f.rt)

/-- SUBU (R114): the same function as SUB (R110). -/
def execSubu (f : RType) (s : State) : Host.Outcome State Fault Refusal := answerReg s f.rd (s.x f.rs - s.x f.rt)

/-- ADDI (R115): the immediate is sign-extended. -/
def execAddi (f : IType) (s : State) : Host.Outcome State Fault Refusal :=
  answerReg s f.rt (s.x f.rs + signedImm f.imm16)

/-- ADDIU (R116): the immediate is sign-extended; the same function as ADDI (R110). -/
def execAddiu (f : IType) (s : State) : Host.Outcome State Fault Refusal :=
  answerReg s f.rt (s.x f.rs + signedImm f.imm16)

end Sys2Proof.Machine
end

