-- ==== Sys2Proof/Machine/BranchJump.lean ====
section
/-! DEFINITION. Branches and jumps (45_branch_jump.md R170 to R183): no delay slot, the pc is that of the instruction. -/

namespace Sys2Proof.Machine

/-- BEQ (R171). -/
def execBeq (f : IType) (s : State) : Host.Outcome State Fault Refusal :=
  answerBranch s (condEq (s.x f.rs) (s.x f.rt)) (branchTarget s.current.pc f.imm16)

/-- BNE (R172). -/
def execBne (f : IType) (s : State) : Host.Outcome State Fault Refusal :=
  answerBranch s (condNe (s.x f.rs) (s.x f.rt)) (branchTarget s.current.pc f.imm16)

/-- BLEZ (R173): `rt` is ignored. -/
def execBlez (f : IType) (s : State) : Host.Outcome State Fault Refusal :=
  answerBranch s (condLez (s.x f.rs)) (branchTarget s.current.pc f.imm16)

/-- BGTZ (R174): `rt` is ignored. -/
def execBgtz (f : IType) (s : State) : Host.Outcome State Fault Refusal :=
  answerBranch s (condGtz (s.x f.rs)) (branchTarget s.current.pc f.imm16)

/-- BLTZ (R175). -/
def execBltz (f : RegimmType) (s : State) : Host.Outcome State Fault Refusal :=
  answerBranch s (condLtz (s.x f.rs)) (branchTarget s.current.pc f.imm16)

/-- BGEZ (R176). -/
def execBgez (f : RegimmType) (s : State) : Host.Outcome State Fault Refusal :=
  answerBranch s (condGez (s.x f.rs)) (branchTarget s.current.pc f.imm16)

/-- J (R178). -/
def execJ (f : JType) (s : State) : Host.Outcome State Fault Refusal :=
  answerBranch s true (jumpTarget s.current.pc f.target26)

/-- JAL (R179). -/
def execJal (f : JType) (s : State) : Host.Outcome State Fault Refusal :=
  answerLink s linkReg (linkValue s.current.pc) (jumpTarget s.current.pc f.target26)

/-- JR (R180): all 32 bits are copied, whatever their alignment. -/
def execJr (f : RType) (s : State) : Host.Outcome State Fault Refusal := answerBranch s true (s.x f.rs)

/-- JALR (R181): the encoded `rd`, also when it is 0 or equal to `rs`; the target is the old value of `rs`. -/
def execJalr (f : RType) (s : State) : Host.Outcome State Fault Refusal :=
  answerLink s f.rd (linkValue s.current.pc) (s.x f.rs)

end Sys2Proof.Machine
end

