-- ==== Sys2Proof/Machine/LoadStore.lean ====
section
/-! DEFINITION. Loads and stores (44_load_store.md R155 to R161): one addressing mode, no alignment rule, no fault. -/

namespace Sys2Proof.Machine

/-- LB (R156): the byte is sign-extended. -/
def execLb (f : IType) (s : State) : Host.Outcome State Fault Refusal :=
  answerReg s f.rt (sext32 (memRead1 s.config s.mem (effectiveAddress s f)))

/-- LH (R157): the halfword is sign-extended. -/
def execLh (f : IType) (s : State) : Host.Outcome State Fault Refusal :=
  answerReg s f.rt (sext32 (memRead2 s.config s.mem (effectiveAddress s f)))

/-- LW (R158). -/
def execLw (f : IType) (s : State) : Host.Outcome State Fault Refusal :=
  answerReg s f.rt (memRead4 s.config s.mem (effectiveAddress s f))

/-- SB (R159): the low 8 bits of `rt`. -/
def execSb (f : IType) (s : State) : Host.Outcome State Fault Refusal :=
  answerMem s (memWrite1 s.config s.mem (effectiveAddress s f) ((s.x f.rt).extractLsb' 0 8))

/-- SH (R160): the low 16 bits of `rt`. -/
def execSh (f : IType) (s : State) : Host.Outcome State Fault Refusal :=
  answerMem s (memWrite2 s.config s.mem (effectiveAddress s f) ((s.x f.rt).extractLsb' 0 16))

/-- SW (R161). -/
def execSw (f : IType) (s : State) : Host.Outcome State Fault Refusal :=
  answerMem s (memWrite4 s.config s.mem (effectiveAddress s f) (s.x f.rt))

end Sys2Proof.Machine
end

