-- ==== Sys2Proof/Machine/Logical.lean ====
section
/-! DEFINITION. Bitwise logic and load-upper (41_logical.md R120 to R128). -/

namespace Sys2Proof.Machine

/-- AND (R121). -/
def execAnd (f : RType) (s : State) : Host.Outcome State Fault Refusal := answerReg s f.rd (s.x f.rs &&& s.x f.rt)

/-- OR (R122). -/
def execOr (f : RType) (s : State) : Host.Outcome State Fault Refusal := answerReg s f.rd (s.x f.rs ||| s.x f.rt)

/-- XOR (R123). -/
def execXor (f : RType) (s : State) : Host.Outcome State Fault Refusal := answerReg s f.rd (s.x f.rs ^^^ s.x f.rt)

/-- NOR (R124): the complement of the OR, on 32 bits. -/
def execNor (f : RType) (s : State) : Host.Outcome State Fault Refusal := answerReg s f.rd (~~~(s.x f.rs ||| s.x f.rt))

/-- ANDI (R125): the immediate is zero-extended. -/
def execAndi (f : IType) (s : State) : Host.Outcome State Fault Refusal :=
  answerReg s f.rt (s.x f.rs &&& logicalImm f.imm16)

/-- ORI (R126): the immediate is zero-extended. -/
def execOri (f : IType) (s : State) : Host.Outcome State Fault Refusal :=
  answerReg s f.rt (s.x f.rs ||| logicalImm f.imm16)

/-- XORI (R127): the immediate is zero-extended. -/
def execXori (f : IType) (s : State) : Host.Outcome State Fault Refusal :=
  answerReg s f.rt (s.x f.rs ^^^ logicalImm f.imm16)

/-- LUI (R128): `rs` is ignored, no register is read. -/
def execLui (f : IType) (s : State) : Host.Outcome State Fault Refusal := answerReg s f.rt (upperImm f.imm16)

end Sys2Proof.Machine
end

