-- ==== Sys2Proof/Machine/MulDiv.lean ====
section
/-! DEFINITION. Multiply, divide and the HI/LO moves (43_muldiv_hilo.md R140 to R149). -/

namespace Sys2Proof.Machine

/-- `p <- trunc_64(s32(a) * s32(b))` (R141). -/
def signedProduct (a b : Word) : BitVec 64 := BitVec.ofInt 64 (a.toInt * b.toInt)

/-- `p <- u32(a) * u32(b)` (R142). -/
def unsignedProduct (a b : Word) : BitVec 64 := BitVec.ofNat 64 (a.toNat * b.toNat)

/-- `LO <- p[31:0]; HI <- p[63:32]` (R140). -/
def answerProduct (s : State) (p : BitVec 64) : Host.Outcome State Fault Refusal :=
  answerHiLo s (p.extractLsb' 32 32) (p.extractLsb' 0 32)

/-- `sign(a) * sign(b) * floor(|a| / |b|)`: truncation toward zero (R144). -/
def truncatedQuotient (a b : Int) : Int := a.sign * b.sign * ((a.natAbs / b.natAbs : Nat) : Int)

/-- The signed quotient, its low 32 bits: for -2^31 divided by -1 this is 0x80000000 (R143, R144). -/
def signedQuotient (a b : Word) : Word := BitVec.ofInt 32 (truncatedQuotient a.toInt b.toInt)

/-- The signed remainder `a - q * b` with the exact quotient (R144). -/
def signedRemainder (a b : Word) : Word := BitVec.ofInt 32 (a.toInt - truncatedQuotient a.toInt b.toInt * b.toInt)

/-- `floor(a / b)` (R145). -/
def unsignedQuotient (a b : Word) : Word := BitVec.ofNat 32 (a.toNat / b.toNat)

/-- `a mod b` (R145). -/
def unsignedRemainder (a b : Word) : Word := BitVec.ofNat 32 (a.toNat % b.toNat)

/-- Division by zero: HI and LO unchanged, the record appended, `pc <- pc + 4` (R143, 60_exceptions.md R202). -/
def answerDivZero (s : State) (raw : Word) : Host.Outcome State Fault Refusal :=
  .next ((recordArithmetic s raw).withNext s.begin)

/-- MULT (R141). -/
def execMult (f : RType) (s : State) : Host.Outcome State Fault Refusal :=
  answerProduct s (signedProduct (s.x f.rs) (s.x f.rt))

/-- MULTU (R142). -/
def execMultu (f : RType) (s : State) : Host.Outcome State Fault Refusal :=
  answerProduct s (unsignedProduct (s.x f.rs) (s.x f.rt))

/-- DIV (R144): dividend `rs`, divisor `rt`; quotient to LO, remainder to HI. The word recorded is the one this
instruction was decoded from (10_state.md R33, log entry 4). -/
def execDiv (f : RType) (s : State) : Host.Outcome State Fault Refusal :=
  if s.x f.rt = 0#32 then answerDivZero s (encode (.div f))
  else answerHiLo s (signedRemainder (s.x f.rs) (s.x f.rt)) (signedQuotient (s.x f.rs) (s.x f.rt))

/-- DIVU (R145): as DIV, on unsigned values. -/
def execDivu (f : RType) (s : State) : Host.Outcome State Fault Refusal :=
  if s.x f.rt = 0#32 then answerDivZero s (encode (.divu f))
  else answerHiLo s (unsignedRemainder (s.x f.rs) (s.x f.rt)) (unsignedQuotient (s.x f.rs) (s.x f.rt))

/-- MFHI (R146). -/
def execMfhi (f : RType) (s : State) : Host.Outcome State Fault Refusal := answerReg s f.rd s.current.hi

/-- MTHI (R147): LO is unchanged. -/
def execMthi (f : RType) (s : State) : Host.Outcome State Fault Refusal := answerHiLo s (s.x f.rs) s.current.lo

/-- MFLO (R148). -/
def execMflo (f : RType) (s : State) : Host.Outcome State Fault Refusal := answerReg s f.rd s.current.lo

/-- MTLO (R149): HI is unchanged. -/
def execMtlo (f : RType) (s : State) : Host.Outcome State Fault Refusal := answerHiLo s s.current.hi (s.x f.rs)

end Sys2Proof.Machine
end

