-- ==== Sys2Proof/Machine/ShiftCompare.lean ====
section
/-! DEFINITION. Shifts and signed comparison (42_shift_compare.md R130 to R136). The amount is 0 to 31, so a shift by the
register width or more cannot be encoded (R130). -/

namespace Sys2Proof.Machine

/-- SLL (R131): zeros enter at bit 0; `rs` is ignored. -/
def execSll (f : RType) (s : State) : Host.Outcome State Fault Refusal := answerReg s f.rd (s.x f.rt <<< f.shamt.toNat)

/-- SRL (R132): zeros enter at bit 31; `rs` is ignored. -/
def execSrl (f : RType) (s : State) : Host.Outcome State Fault Refusal := answerReg s f.rd (s.x f.rt >>> f.shamt.toNat)

/-- SRA (R133): copies of bit 31 enter; `rs` is ignored. -/
def execSra (f : RType) (s : State) : Host.Outcome State Fault Refusal :=
  answerReg s f.rd ((s.x f.rt).sshiftRight f.shamt.toNat)

/-- SLT (R135). -/
def execSlt (f : RType) (s : State) : Host.Outcome State Fault Refusal :=
  answerReg s f.rd (setWord (lessSigned (s.x f.rs) (s.x f.rt)))

/-- SLTI (R136): the immediate is sign-extended. -/
def execSlti (f : IType) (s : State) : Host.Outcome State Fault Refusal :=
  answerReg s f.rt (setWord (lessSigned (s.x f.rs) (signedImm f.imm16)))

end Sys2Proof.Machine
end

