-- ==== Sys2Proof/Machine/System.lean ====
section
/-! DEFINITION. SYSCALL (46_system.md R190). There is no other system instruction (R192); what an Unsupported word does
(R191) is `raiseUnimplemented` of Ops.lean, called by step. -/

namespace Sys2Proof.Machine

/-- SYSCALL (R190): service code 10 in register 2 halts, any other does nothing; the pc advances in both cases. -/
def execSyscall (_f : RType) (s : State) : Host.Outcome State Fault Refusal :=
  .next ((s.withStatus (if condHaltService (s.x serviceReg) then .halted else s.status)).withNext s.begin)

end Sys2Proof.Machine
end

