-- ==== Sys2Proof/Machine/Step.lean ====
section
/-! DEFINITION. The cycle (10_state.md R43) and the host's way to place an instruction. -/

namespace Sys2Proof.Machine

/-- `step()` (R43): nothing while Halted; else fetch, decode, and either the Unsupported outcome, which does not commit, or
execute and commit. -/
def step (s : State) : Host.Outcome State Fault Refusal :=
  match s.status with
  | .halted  => .next s
  | .running =>
    match decode (fetch s) with
    | .error u => .next (raiseUnimplemented s u.raw)
    | .ok i    => commitOutcome (exec i s)

/-- `s` with the word whose low `nbits` bits are those of `w` stored at the pc, and running: it stands for the load of a
program from outside (log entry 5). Where the pc is not admitted by Mapped4 nothing but 0 can be fetched (20_memory.md R53),
and the store is dropped as any other. -/
def State.withFetchWord (s : State) (nbits w : Nat) : State :=
  { s with
    status := .running
    mem    := write32 s.config s.mem s.current.pc (BitVec.ofNat 32 (w % 2 ^ nbits)) }

end Sys2Proof.Machine
end

