-- ==== Sys2Proof/Machine/Surface.lean ====
section
/-! DEFINITION. The host's surface (10_state.md R39, R40, R44 to R46) and reset with the load of the image
(70_reset_and_hazards.md R230 to R233). The host acts between steps only (R46). -/

namespace Sys2Proof.Machine

/-! ### Accessors (R39): they change nothing -/

def State.getRegister (s : State) (i : RegNum) : Word := s.x i
def State.getPc (s : State) : Word := s.current.pc
def State.getHi (s : State) : Word := s.current.hi
def State.getLo (s : State) : Word := s.current.lo
def State.hostRead32 (s : State) (a : Word) : Word := read32 s.config s.mem a
def State.getCount (s : State) : BitVec 64 := s.instructionCount
def State.getStatus (s : State) : Status := s.status
def State.faults (s : State) : List FaultRecord := s.faultLog

/-! ### Mutators of registers (R40), legal in either Status -/

/-- The snapshot patched from outside. DESIGN CHOICE (log entry 3): the hidden copy `next` follows, so that it is equal to
`current` at every cycle boundary (R20); no step reads it (R34). -/
def State.patch (s : State) (a : Arch) : State := { s with current := a, next := a }

/-- `set_register(i, v)`: nothing for register 0 (R22). -/
def State.setRegister (s : State) (i : RegNum) (v : Word) : State := s.patch (s.current.setReg i v)

/-- `set_hi(v)`. -/
def State.setHi (s : State) (v : Word) : State := s.patch (s.current.setHi v)

/-- `set_lo(v)`. -/
def State.setLo (s : State) (v : Word) : State := s.patch (s.current.setLo v)

/-! ### Boot and reset (70_reset_and_hazards.md R230, R231) -/

/-- The loader: `Write32` of each word at successive addresses, modulo 2^32 (R233, log entry 6). -/
def loadWords (c : Config) (a : Word) (ws : List Word) (m : Memory) : Memory :=
  match ws with
  | []      => m
  | w :: ws => loadWords c (a + 4#32) ws (write32 c m a w)

/-- Boot: zeroed memory and registers, then the image (R230). With the default parameters this is `State.reset`. -/
def State.boot (c : Config) : State := (State.blank c).withMem (loadWords c c.textBase c.image [])

/-- `reset()`: the machine is reconstructed from its parameters, whatever its state and Status (R230, R231). -/
def State.hostReset (s : State) : State := State.boot s.config

/-! ### Runs (R44, R45) -/

/-- `run_for(n)`: up to `n` steps, stopping early when Halted (R44). A stop signal from outside is honoured between steps
(60_exceptions.md R205), so a stopped run is one of these. -/
def runFor (n : Nat) (s : State) : Host.Outcome State Fault Refusal :=
  match n with
  | 0     => .next s
  | n + 1 =>
    match s.status with
    | .halted  => .next s
    | .running =>
      match step s with
      | .next t    => runFor n t
      | .fault r   => .fault r
      | .refused r => .refused r

/-- `run_to_completion()` returns in `t`: the reflexive-transitive closure of `step` up to the first Halted state (R45). It
relates `s` to nothing when the program never halts (70_reset_and_hazards.md R246). -/
def RunsToCompletion (s t : State) : Prop := t.status = .halted ∧ ∃ n, runFor n s = .next t

/-- What the host can do to the machine (R40). A `run_to_completion()` that returns is a `runFor`. -/
inductive HostAction where
  | step
  | runFor (n : Nat)
  | setRegister (i : RegNum) (v : Word)
  | setHi (v : Word)
  | setLo (v : Word)
  | reset
deriving DecidableEq, Repr

/-- One host action. -/
def HostAction.act (h : HostAction) (s : State) : Host.Outcome State Fault Refusal :=
  match h with
  | .step            => Sys2Proof.Machine.step s
  | .runFor n        => Sys2Proof.Machine.runFor n s
  | .setRegister i v => .next (s.setRegister i v)
  | .setHi v         => .next (s.setHi v)
  | .setLo v         => .next (s.setLo v)
  | .reset           => .next s.hostReset

/-- An execution: a sequence of host actions (R46). -/
def runActions (hs : List HostAction) (s : State) : Host.Outcome State Fault Refusal :=
  match hs with
  | []      => .next s
  | h :: hs =>
    match h.act s with
    | .next t    => runActions hs t
    | .fault r   => .fault r
    | .refused r => .refused r

end Sys2Proof.Machine
end

