-- ==== Sys2Proof/Safety.lean ====
section
/-! DEFINITION. The words the claims use: the invariant of the machine, what an instruction may write (frames), the roles of
an instruction (10_state.md R24, R29), a clean exit, what a program can see. -/

namespace Sys2Proof

/-! ### The roles of an instruction -/

/-- The general register an instruction writes (10_state.md R24). -/
def Instr.destination : Instr → Option RegNum
  | .sll f | .srl f | .sra f | .jalr f | .mfhi f | .mflo f => some f.rd
  | .add f | .addu f | .sub f | .subu f | .and f | .or f | .xor f | .nor f | .slt f => some f.rd
  | .addi f | .addiu f | .slti f | .andi f | .ori f | .xori f | .lui f | .lb f | .lh f | .lw f => some f.rt
  | .jal _ => some 31#5
  | .jr _ | .syscall _ | .mthi _ | .mtlo _ | .mult _ | .multu _ | .div _ | .divu _ => none
  | .beq _ | .bne _ | .blez _ | .bgtz _ | .sb _ | .sh _ | .sw _ => none
  | .bltz _ | .bgez _ | .j _ => none

/-- The instruction may write HI (10_state.md R29). -/
def Instr.mayWriteHi : Instr → Bool
  | .mult _ | .multu _ | .div _ | .divu _ | .mthi _ => true
  | .sll _ | .srl _ | .sra _ | .jr _ | .jalr _ | .syscall _ | .mfhi _ | .mflo _ | .mtlo _ => false
  | .add _ | .addu _ | .sub _ | .subu _ | .and _ | .or _ | .xor _ | .nor _ | .slt _ => false
  | .beq _ | .bne _ | .blez _ | .bgtz _ | .addi _ | .addiu _ | .slti _ | .andi _ | .ori _ | .xori _ | .lui _ => false
  | .lb _ | .lh _ | .lw _ | .sb _ | .sh _ | .sw _ | .bltz _ | .bgez _ | .j _ | .jal _ => false

/-- The instruction may write LO (10_state.md R29). -/
def Instr.mayWriteLo : Instr → Bool
  | .mult _ | .multu _ | .div _ | .divu _ | .mtlo _ => true
  | .sll _ | .srl _ | .sra _ | .jr _ | .jalr _ | .syscall _ | .mfhi _ | .mflo _ | .mthi _ => false
  | .add _ | .addu _ | .sub _ | .subu _ | .and _ | .or _ | .xor _ | .nor _ | .slt _ => false
  | .beq _ | .bne _ | .blez _ | .bgtz _ | .addi _ | .addiu _ | .slti _ | .andi _ | .ori _ | .xori _ | .lui _ => false
  | .lb _ | .lh _ | .lw _ | .sb _ | .sh _ | .sw _ | .bltz _ | .bgez _ | .j _ | .jal _ => false

/-- How many bytes the instruction stores (20_memory.md R50, R60). -/
def Instr.storeWidth : Instr → Nat
  | .sb _ => 1
  | .sh _ => 2
  | .sw _ => 4
  | .sll _ | .srl _ | .sra _ | .jr _ | .jalr _ | .syscall _ | .mfhi _ | .mthi _ | .mflo _ | .mtlo _ => 0
  | .mult _ | .multu _ | .div _ | .divu _ => 0
  | .add _ | .addu _ | .sub _ | .subu _ | .and _ | .or _ | .xor _ | .nor _ | .slt _ => 0
  | .beq _ | .bne _ | .blez _ | .bgtz _ | .addi _ | .addiu _ | .slti _ | .andi _ | .ori _ | .xori _ | .lui _ => 0
  | .lb _ | .lh _ | .lw _ | .bltz _ | .bgez _ | .j _ | .jal _ => 0

/-- The instruction is a branch or a jump, which may set the pc to something else than `pc + 4` (10_state.md R26). -/
def Instr.isBranchOrJump : Instr → Bool
  | .beq _ | .bne _ | .blez _ | .bgtz _ | .bltz _ | .bgez _ | .j _ | .jal _ | .jr _ | .jalr _ => true
  | .sll _ | .srl _ | .sra _ | .syscall _ | .mfhi _ | .mthi _ | .mflo _ | .mtlo _ => false
  | .mult _ | .multu _ | .div _ | .divu _ => false
  | .add _ | .addu _ | .sub _ | .subu _ | .and _ | .or _ | .xor _ | .nor _ | .slt _ => false
  | .addi _ | .addiu _ | .slti _ | .andi _ | .ori _ | .xori _ | .lui _ => false
  | .lb _ | .lh _ | .lw _ | .sb _ | .sh _ | .sw _ => false

/-- The divisor register of a divide (43_muldiv_hilo.md R144, R145). -/
def Instr.divisor : Instr → Option RegNum
  | .div f | .divu f => some f.rt
  | .sll _ | .srl _ | .sra _ | .jr _ | .jalr _ | .syscall _ | .mfhi _ | .mthi _ | .mflo _ | .mtlo _ => none
  | .mult _ | .multu _ => none
  | .add _ | .addu _ | .sub _ | .subu _ | .and _ | .or _ | .xor _ | .nor _ | .slt _ => none
  | .beq _ | .bne _ | .blez _ | .bgtz _ | .addi _ | .addiu _ | .slti _ | .andi _ | .ori _ | .xori _ | .lui _ => none
  | .lb _ | .lh _ | .lw _ | .sb _ | .sh _ | .sw _ | .bltz _ | .bgez _ | .j _ | .jal _ => none

namespace Machine

/-! ### Frames: what the result `t` of executing an instruction in `s` holds, before commit -/

/-- Register `d` of `next` is `v`, unless `d` is register 0, whose write is discarded (10_state.md R22); every other
register is as `current` had it. -/
def RegWritten (s t : State) (d : RegNum) (v : Word) : Prop :=
  ∀ r : RegNum, t.next.cell r = if r = d ∧ d ≠ 0#5 then v else s.current.cell r

/-- Every general register is as `current` had it. -/
def RegsKept (s t : State) : Prop := ∀ r : RegNum, t.next.cell r = s.current.cell r

/-- HI and LO are as `current` had them. -/
def HiLoKept (s t : State) : Prop := t.next.hi = s.current.hi ∧ t.next.lo = s.current.lo

/-- Every byte reads as before. -/
def BytesKept (s t : State) : Prop := ∀ a : Nat, t.mem.byte a = s.mem.byte a

/-- Every byte outside the `n` bytes at `a` reads as before. -/
def BytesKeptOutside (s t : State) (a n : Nat) : Prop := ∀ b : Nat, b < a ∨ a + n ≤ b → t.mem.byte b = s.mem.byte b

/-- `current` is untouched until commit, the counter is, and so are the parameters. -/
def CycleKept (s t : State) : Prop :=
  t.current = s.current ∧ t.instructionCount = s.instructionCount ∧ t.config = s.config

/-- Besides that, Status and the fault log are untouched. -/
def ControlKept (s t : State) : Prop := CycleKept s t ∧ t.status = s.status ∧ t.faultLog = s.faultLog

/-- The pc is the default one, `pc + 4` (10_state.md R26). -/
def PcAdvanced (s t : State) : Prop := t.next.pc = s.current.pc + 4#32

/-- Only register `d` (to `v`) and the pc (to `pc + 4`) change. -/
structure OnlyReg (s t : State) (d : RegNum) (v : Word) : Prop where
  regs    : RegWritten s t d v
  pc      : PcAdvanced s t
  hiLo    : HiLoKept s t
  bytes   : BytesKept s t
  control : ControlKept s t

/-- Only HI (to `h`), LO (to `l`) and the pc (to `pc + 4`) change. -/
structure OnlyHiLo (s t : State) (h l : Word) : Prop where
  hi      : t.next.hi = h
  lo      : t.next.lo = l
  regs    : RegsKept s t
  pc      : PcAdvanced s t
  bytes   : BytesKept s t
  control : ControlKept s t

/-- Only the pc changes, to `p`. -/
structure OnlyPc (s t : State) (p : Word) : Prop where
  pc      : t.next.pc = p
  regs    : RegsKept s t
  hiLo    : HiLoKept s t
  bytes   : BytesKept s t
  control : ControlKept s t

/-- Only register `d` (to `v`) and the pc (to `p`) change. -/
structure OnlyLink (s t : State) (d : RegNum) (v p : Word) : Prop where
  pc      : t.next.pc = p
  regs    : RegWritten s t d v
  hiLo    : HiLoKept s t
  bytes   : BytesKept s t
  control : ControlKept s t

/-- Only the `n` bytes at `a` and the pc (to `pc + 4`) change; what the bytes become is said beside it. -/
structure OnlyBytes (s t : State) (a n : Nat) : Prop where
  bytes   : BytesKeptOutside s t a n
  regs    : RegsKept s t
  pc      : PcAdvanced s t
  hiLo    : HiLoKept s t
  control : ControlKept s t

/-- Only the fault log (by one record `r` at its end) and the pc (to `pc + 4`) change. -/
structure OnlyRecord (s t : State) (r : FaultRecord) : Prop where
  log    : t.faultLog = s.faultLog ++ [r]
  regs   : RegsKept s t
  pc     : PcAdvanced s t
  hiLo   : HiLoKept s t
  bytes  : BytesKept s t
  status : t.status = s.status
  cycle  : CycleKept s t

/-! ### The invariant -/

/-- The record of the one fatal fault (60_exceptions.md R201). -/
def FaultRecord.fatal : FaultRecord → Bool
  | .unimplementedInstruction _ _ => true
  | .arithmeticFault _ _          => false

/-- Memory lists only mapped addresses (20_memory.md R51). -/
def MemoryMapped (c : Config) (m : Memory) : Prop :=
  ∀ b ∈ m, ∃ r ∈ c.regions, r.lower ≤ b.1 ∧ b.1 < r.upper

/-- A fatal record is the last of the log, names the word the pc stands at, and the machine is Halted (10_state.md R47,
60_exceptions.md R201, R209). -/
def LogLegal (s : State) : Prop :=
  ∃ l : List FaultRecord, (∀ r ∈ l, r.fatal = false) ∧
    (s.faultLog = l ∨
      s.status = .halted ∧ ∃ raw, s.faultLog = l ++ [FaultRecord.unimplementedInstruction s.current.pc raw])

/-- What holds at every cycle boundary. -/
structure State.Inv (s : State) : Prop where
  /-- The parameters are legal (20_memory.md R51). -/
  configLegal  : s.config.wellFormed = true
  /-- Memory is in its canonical form. -/
  memCanonical : Memory.wf s.mem
  /-- Only mapped addresses hold bytes (20_memory.md R51). -/
  memMapped    : MemoryMapped s.config s.mem
  /-- Register 0 is 0 in every state (10_state.md R22). -/
  zeroRegister : s.current.cell 0#5 = 0#32
  /-- `next` is equal to `current` at every cycle boundary (10_state.md R20). -/
  nextAgrees   : s.next = s.current
  /-- The fault log is one a run can leave. -/
  logLegal     : LogLegal s

/-- A run that ended by SYSCALL: Halted, with no UnimplementedInstruction record (10_state.md R47). -/
def CleanExit (s : State) : Prop := s.status = .halted ∧ ∀ r ∈ s.faultLog, r.fatal = false

/-! ### What a program can see (10_state.md R20, R36) -/

/-- The two states agree on all that an instruction can read, and on Status; they may differ in the counter, the fault log
and the hidden copy `next`. -/
def SameToPrograms (s s' : State) : Prop :=
  s.current = s'.current ∧ s.mem = s'.mem ∧ s.status = s'.status ∧ s.config = s'.config

/-- The state with another list of regions. -/
def State.withRegions (s : State) (rs : List Region) : State := { s with config := { s.config with regions := rs } }

end Machine

end Sys2Proof
end

