-- ==== Sys2Proof/Certificates/Slice0/Obligations.lean ====
section
/-! DEFINITION. The statements for the provers, each with the rules of spec/ it formalises. The frames (OnlyReg, OnlyHiLo,
OnlyPc, OnlyLink, OnlyBytes, OnlyRecord) are those of Safety.lean: each names ALL that an instruction changes. -/

open Sys2Proof Sys2Proof.Machine

/-! ### Encoding -/

/-- 30_encoding.md R81 to R92: every instruction, with every operand at every value, is what its word decodes to.
The encodings' numbers are the spec's own choice (log entry 9). -/
def Obligations.EncodedInstructionDecodesToItself : Prop :=
  ∀ i : Instr, decode (encode i) = .ok i

/-- 30_encoding.md R81 to R92: no bit of a supported word is lost by decoding it, the ignored ones included.
The encodings' numbers are the spec's own choice (log entry 9). -/
def Obligations.DecodedWordEncodesToItself : Prop :=
  ∀ (w : Word) (i : Instr), decode w = .ok i → encode i = w

/-- 30_encoding.md R89 to R92: a word is an instruction exactly when it matches a row of the opcode map, and then it is the
instruction of that row.
The encodings' numbers are the spec's own choice (log entry 9). -/
def Obligations.SupportedWordsAreTheTableRows : Prop :=
  (∀ (w : Word) (i : Instr), decode w = .ok i → i.row ∈ opcodeTable ∧ w &&& i.row.mask = i.row.pattern) ∧
  (∀ (w : Word) (row : OpcodeRow), row ∈ opcodeTable → w &&& row.mask = row.pattern →
    ∃ i, decode w = .ok i ∧ i.row = row)

/-- 30_encoding.md R94 and R86: the Unsupported words, listed by their selecting bits, and what the variant carries.
The encodings' numbers are the spec's own choice (log entry 9).
That branch codes 2 to 31 are Unsupported is the spec's decision D12 (log entry 10). -/
def Obligations.UnsupportedWordsExactly : Prop :=
  ∀ w : Word,
    ((∃ u, decode w = .error u) ↔
      ((opcodeField w = 0#6 ∧ (functField w).toNat ∈
          [1, 4, 5, 6, 7, 10, 11, 13, 14, 15, 20, 21, 22, 23, 28, 29, 30, 31, 40, 41, 43] ++ List.range' 44 20) ∨
       (opcodeField w = 1#6 ∧ 2 ≤ (branchCodeField w).toNat) ∨
       (opcodeField w).toNat ∈ [11] ++ List.range' 16 16 ++ [34, 36, 37, 38, 39, 42] ++ List.range' 44 20)) ∧
    ∀ u, decode w = .error u → u.raw = w ∧ u.opcode.toNat = w.toNat / 2 ^ 26 ∧ u.funct.toNat = w.toNat % 2 ^ 6

/-- 30_encoding.md R81 to R85: the fields of a decoded word are its slices, as numbers. -/
def Obligations.DecodedFieldsAreSlices : Prop :=
  (∀ (w : Word) (c : RType → Instr), w.toNat / 2 ^ 26 = 0 → rTypeOf (functField w) = some c →
    ∃ f : RType, decode w = .ok (c f) ∧ f.rs.toNat = w.toNat / 2 ^ 21 % 2 ^ 5 ∧ f.rt.toNat = w.toNat / 2 ^ 16 % 2 ^ 5 ∧
      f.rd.toNat = w.toNat / 2 ^ 11 % 2 ^ 5 ∧ f.shamt.toNat = w.toNat / 2 ^ 6 % 2 ^ 5) ∧
  (∀ (w : Word) (c : RegimmType → Instr), w.toNat / 2 ^ 26 = 1 → regimmOf (branchCodeField w) = some c →
    ∃ f : RegimmType, decode w = .ok (c f) ∧ f.rs.toNat = w.toNat / 2 ^ 21 % 2 ^ 5 ∧ f.imm16.toNat = w.toNat % 2 ^ 16) ∧
  (∀ w : Word, w.toNat / 2 ^ 26 = 2 → ∃ f : JType, decode w = .ok (.j f) ∧ f.target26.toNat = w.toNat % 2 ^ 26) ∧
  (∀ w : Word, w.toNat / 2 ^ 26 = 3 → ∃ f : JType, decode w = .ok (.jal f) ∧ f.target26.toNat = w.toNat % 2 ^ 26) ∧
  (∀ (w : Word) (c : IType → Instr), 4 ≤ w.toNat / 2 ^ 26 → iTypeOf (opcodeField w) = some c →
    ∃ f : IType, decode w = .ok (c f) ∧ f.rs.toNat = w.toNat / 2 ^ 21 % 2 ^ 5 ∧ f.rt.toNat = w.toNat / 2 ^ 16 % 2 ^ 5 ∧
      f.imm16.toNat = w.toNat % 2 ^ 16)

/-- 30_encoding.md R99: the spec's own encoding examples, one of each format at least.
The encodings' numbers are the spec's own choice (log entry 9). -/
def Obligations.SpecExampleWordsDecode : Prop :=
  decode 0x24010005#32 = .ok (.addiu ⟨0#5, 1#5, 5#16⟩) ∧
  decode 0x00221820#32 = .ok (.add ⟨1#5, 2#5, 3#5, 0#5⟩) ∧
  decode 0x0000000C#32 = .ok (.syscall ⟨0#5, 0#5, 0#5, 0#5⟩) ∧
  decode 0x0C100008#32 = .ok (.jal ⟨0x0100008#26⟩) ∧
  decode 0x112A0002#32 = .ok (.beq ⟨9#5, 10#5, 2#16⟩) ∧
  decode 0x8E08FFFC#32 = .ok (.lw ⟨16#5, 8#5, 0xFFFC#16⟩) ∧
  decode 0x000A4103#32 = .ok (.sra ⟨0#5, 10#5, 8#5, 4#5⟩) ∧
  decode 0x05210004#32 = .ok (.bgez ⟨9#5, 4#16⟩)

/-- 30_encoding.md R93: the ignored fields take no part in selecting the instruction, nor in its effect. (The fault record of
a divide by zero holds the word itself, R33, so the two logs agree in length and not in that word.)
That unused fields are ignored is the spec's own decision D13 (log entry 10); which fields are unused rests on the operand roles
(log entry 9), and the word in the record is the instruction encoded again (log entry 4). -/
def Obligations.IgnoredFieldsHaveNoEffect : Prop :=
  ∀ (i : Instr) (s t : State), exec i s = .next t →
    i.clearIgnored.row = i.row ∧
    ∃ t', exec i.clearIgnored s = .next t' ∧ t'.current = t.current ∧ t'.next = t.next ∧ t'.mem = t.mem ∧
      t'.status = t.status ∧ t'.instructionCount = t.instructionCount ∧ t'.config = t.config ∧
      t'.faultLog.length = t.faultLog.length

/-! ### The instructions: where each completes, its result and its frame -/

/-- 40_arithmetic.md R110 to R116: the low 32 bits of the exact sum or difference, the operands read as signed or as
unsigned integers; the immediate of ADDI and ADDIU is sign-extended.
The encodings' numbers and the operand roles are the spec's own choice (log entry 9).
That ADDIU sign-extends is the spec's own decision D6 (log entry 10). -/
def Obligations.AddSubtractResults : Prop :=
  ∀ (f : RType) (g : IType) (s : State),
    (decode (encodeR 0x20#6 f) = .ok (.add f) ∧ ∃ t v, exec (.add f) s = .next t ∧ OnlyReg s t f.rd v ∧
      v = BitVec.ofInt 32 ((s.x f.rs).toInt + (s.x f.rt).toInt) ∧
      v.toNat = ((s.x f.rs).toNat + (s.x f.rt).toNat) % 2 ^ 32) ∧
    (decode (encodeR 0x21#6 f) = .ok (.addu f) ∧ ∃ t v, exec (.addu f) s = .next t ∧ OnlyReg s t f.rd v ∧
      v = BitVec.ofInt 32 ((s.x f.rs).toInt + (s.x f.rt).toInt) ∧
      v.toNat = ((s.x f.rs).toNat + (s.x f.rt).toNat) % 2 ^ 32) ∧
    (decode (encodeR 0x22#6 f) = .ok (.sub f) ∧ ∃ t v, exec (.sub f) s = .next t ∧ OnlyReg s t f.rd v ∧
      v = BitVec.ofInt 32 ((s.x f.rs).toInt - (s.x f.rt).toInt) ∧
      (v.toNat : Int) = ((s.x f.rs).toNat - (s.x f.rt).toNat : Int) % 2 ^ 32) ∧
    (decode (encodeR 0x23#6 f) = .ok (.subu f) ∧ ∃ t v, exec (.subu f) s = .next t ∧ OnlyReg s t f.rd v ∧
      v = BitVec.ofInt 32 ((s.x f.rs).toInt - (s.x f.rt).toInt) ∧
      (v.toNat : Int) = ((s.x f.rs).toNat - (s.x f.rt).toNat : Int) % 2 ^ 32) ∧
    (decode (encodeI 0x08#6 g) = .ok (.addi g) ∧ ∃ t, exec (.addi g) s = .next t ∧
      OnlyReg s t g.rt (BitVec.ofInt 32 ((s.x g.rs).toInt + g.imm16.toInt))) ∧
    (decode (encodeI 0x09#6 g) = .ok (.addiu g) ∧ ∃ t, exec (.addiu g) s = .next t ∧
      OnlyReg s t g.rt (BitVec.ofInt 32 ((s.x g.rs).toInt + g.imm16.toInt)))

/-- 41_logical.md R120 to R128: each result bit from the operand bits at its position, the immediate's high 16 bits being
0; LUI puts the immediate in the upper half.
The encodings' numbers and the operand roles are the spec's own choice (log entry 9). -/
def Obligations.LogicalResults : Prop :=
  ∀ (f : RType) (g : IType) (s : State),
    (decode (encodeR 0x24#6 f) = .ok (.and f) ∧ ∃ t v, exec (.and f) s = .next t ∧ OnlyReg s t f.rd v ∧
      ∀ k < 32, v.getLsbD k = ((s.x f.rs).getLsbD k && (s.x f.rt).getLsbD k)) ∧
    (decode (encodeR 0x25#6 f) = .ok (.or f) ∧ ∃ t v, exec (.or f) s = .next t ∧ OnlyReg s t f.rd v ∧
      ∀ k < 32, v.getLsbD k = ((s.x f.rs).getLsbD k || (s.x f.rt).getLsbD k)) ∧
    (decode (encodeR 0x26#6 f) = .ok (.xor f) ∧ ∃ t v, exec (.xor f) s = .next t ∧ OnlyReg s t f.rd v ∧
      ∀ k < 32, v.getLsbD k = xor ((s.x f.rs).getLsbD k) ((s.x f.rt).getLsbD k)) ∧
    (decode (encodeR 0x27#6 f) = .ok (.nor f) ∧ ∃ t v, exec (.nor f) s = .next t ∧ OnlyReg s t f.rd v ∧
      ∀ k < 32, v.getLsbD k = !((s.x f.rs).getLsbD k || (s.x f.rt).getLsbD k)) ∧
    (decode (encodeI 0x0C#6 g) = .ok (.andi g) ∧ ∃ t v, exec (.andi g) s = .next t ∧ OnlyReg s t g.rt v ∧
      ∀ k < 32, v.getLsbD k = ((s.x g.rs).getLsbD k && (decide (k < 16) && g.imm16.getLsbD k))) ∧
    (decode (encodeI 0x0D#6 g) = .ok (.ori g) ∧ ∃ t v, exec (.ori g) s = .next t ∧ OnlyReg s t g.rt v ∧
      ∀ k < 32, v.getLsbD k = ((s.x g.rs).getLsbD k || (decide (k < 16) && g.imm16.getLsbD k))) ∧
    (decode (encodeI 0x0E#6 g) = .ok (.xori g) ∧ ∃ t v, exec (.xori g) s = .next t ∧ OnlyReg s t g.rt v ∧
      ∀ k < 32, v.getLsbD k = xor ((s.x g.rs).getLsbD k) (decide (k < 16) && g.imm16.getLsbD k)) ∧
    (decode (encodeI 0x0F#6 g) = .ok (.lui g) ∧ ∃ t v, exec (.lui g) s = .next t ∧ OnlyReg s t g.rt v ∧
      v.toNat = g.imm16.toNat * 2 ^ 16)

/-- 42_shift_compare.md R130 to R133: the shifts as arithmetic on the shifted operand; SRA rounds toward minus infinity.
The encodings' numbers and the operand roles are the spec's own choice (log entry 9). -/
def Obligations.ShiftResults : Prop :=
  ∀ (f : RType) (s : State),
    (decode (encodeR 0x00#6 f) = .ok (.sll f) ∧ ∃ t v, exec (.sll f) s = .next t ∧ OnlyReg s t f.rd v ∧
      v.toNat = (s.x f.rt).toNat * 2 ^ f.shamt.toNat % 2 ^ 32) ∧
    (decode (encodeR 0x02#6 f) = .ok (.srl f) ∧ ∃ t v, exec (.srl f) s = .next t ∧ OnlyReg s t f.rd v ∧
      v.toNat = (s.x f.rt).toNat / 2 ^ f.shamt.toNat) ∧
    (decode (encodeR 0x03#6 f) = .ok (.sra f) ∧ ∃ t v, exec (.sra f) s = .next t ∧ OnlyReg s t f.rd v ∧
      v.toInt = (s.x f.rt).toInt / 2 ^ f.shamt.toNat)

/-- 42_shift_compare.md R134 to R136: signed comparison, the result exactly 0 or 1; the immediate is sign-extended.
The encodings' numbers and the operand roles are the spec's own choice (log entry 9). -/
def Obligations.CompareResults : Prop :=
  ∀ (f : RType) (g : IType) (s : State),
    (decode (encodeR 0x2A#6 f) = .ok (.slt f) ∧ ∃ t, exec (.slt f) s = .next t ∧
      OnlyReg s t f.rd (if (s.x f.rs).toInt < (s.x f.rt).toInt then 1#32 else 0#32)) ∧
    (decode (encodeI 0x0A#6 g) = .ok (.slti g) ∧ ∃ t, exec (.slti g) s = .next t ∧
      OnlyReg s t g.rt (if (s.x g.rs).toInt < g.imm16.toInt then 1#32 else 0#32))

/-- 43_muldiv_hilo.md R140 to R142: HI and LO together are the exact 64-bit product.
The encodings' numbers and the operand roles are the spec's own choice (log entry 9). -/
def Obligations.MultiplyResults : Prop :=
  ∀ (f : RType) (s : State),
    (decode (encodeR 0x18#6 f) = .ok (.mult f) ∧ ∃ t h l, exec (.mult f) s = .next t ∧ OnlyHiLo s t h l ∧
      h.toInt * 2 ^ 32 + (l.toNat : Int) = (s.x f.rs).toInt * (s.x f.rt).toInt) ∧
    (decode (encodeR 0x19#6 f) = .ok (.multu f) ∧ ∃ t h l, exec (.multu f) s = .next t ∧ OnlyHiLo s t h l ∧
      h.toNat * 2 ^ 32 + l.toNat = (s.x f.rs).toNat * (s.x f.rt).toNat)

/-- 43_muldiv_hilo.md R144: quotient truncated toward zero to LO, remainder to HI, wrapped for -2^31 / -1; outside that pair
the exact division law of R143; on a zero divisor only the record.
The encodings' numbers and the operand roles are the spec's own choice (log entry 9).
The truncation, the sign of the remainder and the case -2^31 / -1 are the spec's own decision D7, the record's payload its
decision D10 (log entry 10). -/
def Obligations.SignedDivideResult : Prop :=
  ∀ (f : RType) (s : State),
    decode (encodeR 0x1A#6 f) = .ok (.div f) ∧
    (s.x f.rt = 0#32 → ∃ t, exec (.div f) s = .next t ∧
      OnlyRecord s t (.arithmeticFault s.current.pc (encodeR 0x1A#6 f))) ∧
    (s.x f.rt ≠ 0#32 → ∃ t h l, exec (.div f) s = .next t ∧ OnlyHiLo s t h l ∧
      l = BitVec.ofInt 32 ((s.x f.rs).toInt.tdiv (s.x f.rt).toInt) ∧
      h = BitVec.ofInt 32 ((s.x f.rs).toInt.tmod (s.x f.rt).toInt) ∧
      (s.x f.rs = 0x80000000#32 → s.x f.rt = 0xFFFFFFFF#32 → l = 0x80000000#32 ∧ h = 0#32) ∧
      (¬(s.x f.rs = 0x80000000#32 ∧ s.x f.rt = 0xFFFFFFFF#32) →
        (s.x f.rs).toInt = l.toInt * (s.x f.rt).toInt + h.toInt ∧ h.toInt.natAbs < (s.x f.rt).toInt.natAbs ∧
        (h.toInt = 0 ∨ h.toInt.sign = (s.x f.rs).toInt.sign)))

/-- 43_muldiv_hilo.md R145: unsigned quotient and remainder; on a zero divisor only the record.
The encodings' numbers and the operand roles are the spec's own choice (log entry 9).
The record's payload is the spec's own decision D10 (log entry 10). -/
def Obligations.UnsignedDivideResult : Prop :=
  ∀ (f : RType) (s : State),
    decode (encodeR 0x1B#6 f) = .ok (.divu f) ∧
    (s.x f.rt = 0#32 → ∃ t, exec (.divu f) s = .next t ∧
      OnlyRecord s t (.arithmeticFault s.current.pc (encodeR 0x1B#6 f))) ∧
    (s.x f.rt ≠ 0#32 → ∃ t h l, exec (.divu f) s = .next t ∧ OnlyHiLo s t h l ∧
      l.toNat = (s.x f.rs).toNat / (s.x f.rt).toNat ∧ h.toNat = (s.x f.rs).toNat % (s.x f.rt).toNat)

/-- 43_muldiv_hilo.md R146 to R149: simple moves, the other of HI and LO unchanged.
The encodings' numbers and the operand roles are the spec's own choice (log entry 9). -/
def Obligations.HiLoMoveResults : Prop :=
  ∀ (f : RType) (s : State),
    (decode (encodeR 0x10#6 f) = .ok (.mfhi f) ∧ ∃ t, exec (.mfhi f) s = .next t ∧ OnlyReg s t f.rd s.current.hi) ∧
    (decode (encodeR 0x11#6 f) = .ok (.mthi f) ∧ ∃ t, exec (.mthi f) s = .next t ∧
      OnlyHiLo s t (s.x f.rs) s.current.lo) ∧
    (decode (encodeR 0x12#6 f) = .ok (.mflo f) ∧ ∃ t, exec (.mflo f) s = .next t ∧ OnlyReg s t f.rd s.current.lo) ∧
    (decode (encodeR 0x13#6 f) = .ok (.mtlo f) ∧ ∃ t, exec (.mtlo f) s = .next t ∧
      OnlyHiLo s t s.current.hi (s.x f.rs))

/-- 44_load_store.md R155 to R158: the address, and the value loaded, from the bytes at any alignment; 0 where the access is
not admitted.
The encodings' numbers and the operand roles are the spec's own choice (log entry 9).
Which accesses are admitted, which bytes a narrow load reads and the wrap of the address are its decisions D4, D5, D8
(log entry 10). -/
def Obligations.LoadResults : Prop :=
  ∀ (f : IType) (s : State),
    effectiveAddress s f = BitVec.ofInt 32 ((s.x f.rs).toInt + f.imm16.toInt) ∧
    (decode (encodeI 0x20#6 f) = .ok (.lb f) ∧ ∃ t v, exec (.lb f) s = .next t ∧ OnlyReg s t f.rt v ∧
      (mapped4 s.config (effectiveAddress s f) = true → v.toInt = (s.mem.byte (effectiveAddress s f).toNat).toInt) ∧
      (mapped4 s.config (effectiveAddress s f) = false → v = 0#32)) ∧
    (decode (encodeI 0x21#6 f) = .ok (.lh f) ∧ ∃ t v, exec (.lh f) s = .next t ∧ OnlyReg s t f.rt v ∧
      (mapped4 s.config (effectiveAddress s f) = true →
        v.toInt = (s.mem.byte ((effectiveAddress s f).toNat + 1)).toInt * 2 ^ 8 +
          (s.mem.byte (effectiveAddress s f).toNat).toNat) ∧
      (mapped4 s.config (effectiveAddress s f) = false → v = 0#32)) ∧
    (decode (encodeI 0x23#6 f) = .ok (.lw f) ∧ ∃ t v, exec (.lw f) s = .next t ∧ OnlyReg s t f.rt v ∧
      (mapped4 s.config (effectiveAddress s f) = true →
        v.toNat = (s.mem.byte (effectiveAddress s f).toNat).toNat +
          2 ^ 8 * (s.mem.byte ((effectiveAddress s f).toNat + 1)).toNat +
          2 ^ 16 * (s.mem.byte ((effectiveAddress s f).toNat + 2)).toNat +
          2 ^ 24 * (s.mem.byte ((effectiveAddress s f).toNat + 3)).toNat) ∧
      (mapped4 s.config (effectiveAddress s f) = false → v = 0#32))

/-- 44_load_store.md R155, R159 to R161: the bytes stored, least significant first, at the effective address and nowhere
else, at any alignment; nothing where the access is not admitted. Premise: memory is canonical (part of State.Inv).
The encodings' numbers and the operand roles are the spec's own choice (log entry 9).
Which accesses are admitted, which bytes a narrow store writes and the wrap of the address are its decisions D4, D5, D8
(log entry 10). -/
def Obligations.StoreResults : Prop :=
  ∀ (f : IType) (s : State), Memory.wf s.mem →
    effectiveAddress s f = BitVec.ofInt 32 ((s.x f.rs).toInt + f.imm16.toInt) ∧
    (decode (encodeI 0x28#6 f) = .ok (.sb f) ∧ ∃ t, exec (.sb f) s = .next t ∧
      (mapped4 s.config (effectiveAddress s f) = true → OnlyBytes s t (effectiveAddress s f).toNat 1 ∧
        (t.mem.byte (effectiveAddress s f).toNat).toNat = (s.x f.rt).toNat % 2 ^ 8) ∧
      (mapped4 s.config (effectiveAddress s f) = false → OnlyBytes s t (effectiveAddress s f).toNat 0)) ∧
    (decode (encodeI 0x29#6 f) = .ok (.sh f) ∧ ∃ t, exec (.sh f) s = .next t ∧
      (mapped4 s.config (effectiveAddress s f) = true → OnlyBytes s t (effectiveAddress s f).toNat 2 ∧
        ∀ k < 2, (t.mem.byte ((effectiveAddress s f).toNat + k)).toNat = (s.x f.rt).toNat / 2 ^ (8 * k) % 2 ^ 8) ∧
      (mapped4 s.config (effectiveAddress s f) = false → OnlyBytes s t (effectiveAddress s f).toNat 0)) ∧
    (decode (encodeI 0x2B#6 f) = .ok (.sw f) ∧ ∃ t, exec (.sw f) s = .next t ∧
      (mapped4 s.config (effectiveAddress s f) = true → OnlyBytes s t (effectiveAddress s f).toNat 4 ∧
        ∀ k < 4, (t.mem.byte ((effectiveAddress s f).toNat + k)).toNat = (s.x f.rt).toNat / 2 ^ (8 * k) % 2 ^ 8) ∧
      (mapped4 s.config (effectiveAddress s f) = false → OnlyBytes s t (effectiveAddress s f).toNat 0))

/-- 45_branch_jump.md R170 to R176: the target is relative to `pc + 4`, the condition is on the current registers, and a
branch not taken goes to `pc + 4`.
The encodings' numbers and the operand roles are the spec's own choice (log entry 9).
The wrap of the target is its decision D8 (log entry 10). -/
def Obligations.BranchResults : Prop :=
  ∀ (f : IType) (g : RegimmType) (s : State),
    (decode (encodeI 0x04#6 f) = .ok (.beq f) ∧ ∃ t, exec (.beq f) s = .next t ∧ OnlyPc s t
      (if s.x f.rs = s.x f.rt then BitVec.ofInt 32 (s.current.pc.toNat + 4 + f.imm16.toInt * 4) else s.current.pc + 4#32)) ∧
    (decode (encodeI 0x05#6 f) = .ok (.bne f) ∧ ∃ t, exec (.bne f) s = .next t ∧ OnlyPc s t
      (if s.x f.rs ≠ s.x f.rt then BitVec.ofInt 32 (s.current.pc.toNat + 4 + f.imm16.toInt * 4) else s.current.pc + 4#32)) ∧
    (decode (encodeI 0x06#6 f) = .ok (.blez f) ∧ ∃ t, exec (.blez f) s = .next t ∧ OnlyPc s t
      (if (s.x f.rs).toInt ≤ 0 then BitVec.ofInt 32 (s.current.pc.toNat + 4 + f.imm16.toInt * 4) else s.current.pc + 4#32)) ∧
    (decode (encodeI 0x07#6 f) = .ok (.bgtz f) ∧ ∃ t, exec (.bgtz f) s = .next t ∧ OnlyPc s t
      (if 0 < (s.x f.rs).toInt then BitVec.ofInt 32 (s.current.pc.toNat + 4 + f.imm16.toInt * 4) else s.current.pc + 4#32)) ∧
    (decode (encodeRegimm 0x00#5 g) = .ok (.bltz g) ∧ ∃ t, exec (.bltz g) s = .next t ∧ OnlyPc s t
      (if (s.x g.rs).getLsbD 31 = true then BitVec.ofInt 32 (s.current.pc.toNat + 4 + g.imm16.toInt * 4)
       else s.current.pc + 4#32)) ∧
    (decode (encodeRegimm 0x01#5 g) = .ok (.bgez g) ∧ ∃ t, exec (.bgez g) s = .next t ∧ OnlyPc s t
      (if (s.x g.rs).getLsbD 31 = false then BitVec.ofInt 32 (s.current.pc.toNat + 4 + g.imm16.toInt * 4)
       else s.current.pc + 4#32))

/-- 45_branch_jump.md R177 to R181: J and JAL keep the top four bits of the jump's own pc; JR and JALR copy the register,
whatever its alignment; the link is `pc + 4`, to register 31 or to the encoded `rd` (discarded for register 0).
The encodings' numbers and the operand roles are the spec's own choice (log entry 9).
The wrap of the link is its decision D8 (log entry 10). -/
def Obligations.JumpResults : Prop :=
  ∀ (f : JType) (g : RType) (s : State),
    (decode (encodeJ 0x02#6 f) = .ok (.j f) ∧ ∃ t, exec (.j f) s = .next t ∧
      OnlyPc s t ((s.current.pc &&& 0xF0000000#32) ||| (f.target26.zeroExtend 32 <<< 2))) ∧
    (decode (encodeJ 0x03#6 f) = .ok (.jal f) ∧ ∃ t, exec (.jal f) s = .next t ∧
      OnlyLink s t 31#5 (s.current.pc + 4#32) ((s.current.pc &&& 0xF0000000#32) ||| (f.target26.zeroExtend 32 <<< 2))) ∧
    (decode (encodeR 0x08#6 g) = .ok (.jr g) ∧ ∃ t, exec (.jr g) s = .next t ∧ OnlyPc s t (s.x g.rs)) ∧
    (decode (encodeR 0x09#6 g) = .ok (.jalr g) ∧ ∃ t, exec (.jalr g) s = .next t ∧
      OnlyLink s t g.rd (s.current.pc + 4#32) (s.x g.rs))

/-- 46_system.md R190: SYSCALL halts exactly when all 32 bits of register 2 are 10, and in both cases only advances the pc.
The encodings' numbers and the operand roles are the spec's own choice (log entry 9). -/
def Obligations.SyscallResult : Prop :=
  ∀ (f : RType) (s : State),
    decode (encodeR 0x0C#6 f) = .ok (.syscall f) ∧
    ∃ t, exec (.syscall f) s = .next t ∧ RegsKept s t ∧ PcAdvanced s t ∧ HiLoKept s t ∧ BytesKept s t ∧ CycleKept s t ∧
      t.faultLog = s.faultLog ∧ t.status = if (s.x 2#5).toNat = 10 then .halted else s.status

/-! ### The bus -/

/-- 20_memory.md R52: `Mapped4`, and under a legal region list no access reaches past the top of the space.
That an access whose bytes leave its region counts as unmapped is the spec's own decision D4 (log entry 10). -/
def Obligations.MappedFourExactly : Prop :=
  (∀ (c : Config) (a : Word),
    mapped4 c a = true ↔ ∃ r ∈ c.regions, r.lower ≤ a.toNat ∧ a.toNat + 4 ≤ r.upper) ∧
  (∀ (c : Config) (a : Word), c.wellFormed = true → 0xFFFFFFFC < a.toNat → mapped4 c a = false)

/-- 20_memory.md R53: the four bytes at `a`, least significant first, at any alignment; 0 where not admitted. -/
def Obligations.BusReadIsLittleEndian : Prop :=
  ∀ (c : Config) (m : Memory) (a : Word),
    (mapped4 c a = true → ∀ k < 4, ((read32 c m a).extractLsb' (8 * k) 8) = m.byte (a.toNat + k)) ∧
    (mapped4 c a = false → read32 c m a = 0#32)

/-- 20_memory.md R54: the four bytes at `a` become those of `v`, least significant first, no other byte changes; nothing
changes where not admitted. Premise: memory is canonical (part of State.Inv). -/
def Obligations.BusWriteStoresFourBytes : Prop :=
  ∀ (c : Config) (m : Memory) (a v : Word), Memory.wf m →
    (mapped4 c a = true →
      (∀ k < 4, (write32 c m a v).byte (a.toNat + k) = v.extractLsb' (8 * k) 8) ∧
      ∀ b : Nat, b < a.toNat ∨ a.toNat + 4 ≤ b → (write32 c m a v).byte b = m.byte b) ∧
    (mapped4 c a = false → write32 c m a v = m)

/-- 20_memory.md R53, R54, R59: a word written reads back; where the access is not admitted it reads 0. -/
def Obligations.BusReadAfterWrite : Prop :=
  ∀ (c : Config) (m : Memory) (a v : Word), Memory.wf m →
    read32 c (write32 c m a v) a = if mapped4 c a then v else 0#32

/-- 20_memory.md R57, the consequences it lists: the narrow accesses are the bytes at the exact address, the other bytes of
the word rewritten with their own values, and nothing happens where the WORD is not admitted.
Which bytes a narrow access touches is the spec's own decision D5, which words are admitted its decision D4 (log entry 10). -/
def Obligations.NarrowAccessesTouchTheirBytes : Prop :=
  ∀ (c : Config) (m : Memory) (a : Word) (v : Byte) (w : BitVec 16), Memory.wf m →
    (mapped4 c a = true →
      memRead1 c m a = m.byte a.toNat ∧
      (memRead2 c m a).toNat = (m.byte a.toNat).toNat + 2 ^ 8 * (m.byte (a.toNat + 1)).toNat ∧
      (∀ b : Nat, (memWrite1 c m a v).byte b = if b = a.toNat then v else m.byte b) ∧
      (∀ b : Nat, (memWrite2 c m a w).byte b =
        if b = a.toNat then w.extractLsb' 0 8 else if b = a.toNat + 1 then w.extractLsb' 8 8 else m.byte b)) ∧
    (mapped4 c a = false →
      memRead1 c m a = 0#8 ∧ memRead2 c m a = 0#16 ∧ memWrite1 c m a v = m ∧ memWrite2 c m a w = m) ∧
    memRead4 c m a = read32 c m a ∧ ∀ x : Word, memWrite4 c m a x = write32 c m a x

/-- 20_memory.md R58: accesses of different widths to overlapping addresses see each other's bytes. Premise: the regions are
legal (R51), so that `a + 1` and `a + 2` do not wrap where `a` is admitted.
The bytes of a narrow access are the spec's own decision D5 (log entry 10). -/
def Obligations.MixedWidthsSeeEachOther : Prop :=
  ∀ (c : Config) (m : Memory) (a v : Word), c.wellFormed = true → Memory.wf m → mapped4 c a = true →
    memRead1 c (memWrite4 c m a v) a = v.extractLsb' 0 8 ∧
    (mapped4 c (a + 1#32) = true → memRead1 c (memWrite4 c m a v) (a + 1#32) = v.extractLsb' 8 8 ∧
      (memRead4 c (memWrite4 c m a v) (a + 1#32)).extractLsb' 0 24 = v.extractLsb' 8 24) ∧
    (mapped4 c (a + 2#32) = true → memRead2 c (memWrite4 c m a v) (a + 2#32) = v.extractLsb' 16 16)

/-! ### Whole-machine rules over every instruction -/

/-- 10_state.md R34: execute never touches `current`, the counter or the parameters; only commit does. -/
def Obligations.ExecuteLeavesCurrentUntouched : Prop :=
  ∀ (i : Instr) (s t : State), exec i s = .next t → CycleKept s t

/-- 10_state.md R24: at most one general register is written, the one the rule names; every other keeps its value. -/
def Obligations.OnlyTheDestinationRegisterIsWritten : Prop :=
  ∀ (i : Instr) (s t : State), exec i s = .next t →
    ∀ r : RegNum, i.destination ≠ some r → t.next.cell r = s.current.cell r

/-- 10_state.md R22: register 0 is 0 at reset, reads as 0, and no instruction or host write changes it.
That register 0 is hard-wired is the spec's own decision D1 (log entry 10). -/
def Obligations.RegisterZeroIsHardWired : Prop :=
  (∀ c : Config, (State.boot c).current.cell 0#5 = 0#32) ∧
  (∀ s : State, s.x 0#5 = 0#32) ∧
  (∀ (i : Instr) (s t : State), exec i s = .next t → t.next.cell 0#5 = s.current.cell 0#5) ∧
  (∀ (s : State) (v : Word), (s.setRegister 0#5 v).current = s.current)

/-- 10_state.md R29: only the multiplies, the divides and the moves to HI and LO write HI or LO. -/
def Obligations.HiLoWrittenOnlyByTheirInstructions : Prop :=
  ∀ (i : Instr) (s t : State), exec i s = .next t →
    (i.mayWriteHi = false → t.next.hi = s.current.hi) ∧ (i.mayWriteLo = false → t.next.lo = s.current.lo)

/-- 20_memory.md R50, R69: only SB, SH and SW write memory, and then by at most one bus write at the effective address. -/
def Obligations.OnlyStoresWriteMemory : Prop :=
  ∀ (i : Instr) (s t : State), exec i s = .next t →
    (i.storeWidth = 0 → t.mem = s.mem) ∧
    (i.storeWidth ≠ 0 → ∃ (f : IType) (v : Word), (i = .sb f ∨ i = .sh f ∨ i = .sw f) ∧
      t.mem = write32 s.config s.mem (effectiveAddress s f) v)

/-- 10_state.md R26: every instruction that is no branch or jump ends with `pc + 4`.
The wrap of the pc is the spec's own decision D8 (log entry 10). -/
def Obligations.DefaultPcRule : Prop :=
  ∀ (i : Instr) (s t : State), exec i s = .next t → i.isBranchOrJump = false → t.next.pc = s.current.pc + 4#32

/-- 00_scope.md R13: no state is stuck and no instruction is refused: every step answers a next state. -/
def Obligations.EveryStepAnswersANextState : Prop :=
  (∀ s : State, ∃ t, step s = .next t) ∧ (∀ (i : Instr) (s : State), ∃ t, exec i s = .next t)

/-! ### The cycle -/

/-- 10_state.md R43 (steps 2, 3, 5, 6) and 20_memory.md R53: when the four bytes at the pc decode to `i`, a step of a running
machine is exec of `i` and then commit: `current` becomes `next` and the counter rises by 1. At a pc that is not admitted the
instruction executed is the word 0, SLL r0, r0, 0. -/
def Obligations.StepRunsTheDecodedInstruction : Prop :=
  (∀ (s t : State) (i : Instr), s.status = .running → mapped4 s.config s.current.pc = true →
    decodeBytes (s.mem.byte s.current.pc.toNat) (s.mem.byte (s.current.pc.toNat + 1))
      (s.mem.byte (s.current.pc.toNat + 2)) (s.mem.byte (s.current.pc.toNat + 3)) = .ok i →
    exec i s = .next t →
    step s = .next { t with current := t.next, instructionCount := t.instructionCount + 1#64 }) ∧
  (∀ s t : State, s.status = .running → mapped4 s.config s.current.pc = false →
    exec (.sll ⟨0#5, 0#5, 0#5, 0#5⟩) s = .next t →
    step s = .next { t with current := t.next, instructionCount := t.instructionCount + 1#64 })

/-- 60_exceptions.md R201, 46_system.md R191: an Unsupported word appends its record and halts; nothing else changes, and the
fault is not recorded twice. It is the only fatal fault: a cycle that appends another record stays Running.
That the cycle does not commit and the pc stays at the word is the spec's own decision D9, the record its decision D10
(log entry 10); that a step of the Halted machine changes nothing is 10_state.md R43 step 1. -/
def Obligations.UnsupportedWordHaltsWithoutCommit : Prop :=
  (∀ (s : State) (u : Unsupported), s.status = .running → decode (read32 s.config s.mem s.current.pc) = .error u →
    ∃ t, step s = .next t ∧
      t = { s with status := .halted,
                   faultLog := s.faultLog ++
                     [.unimplementedInstruction s.current.pc (read32 s.config s.mem s.current.pc)] } ∧
      step t = .next t) ∧
  (∀ (s t : State) (i : Instr), s.status = .running → decode (fetch s) = .ok i → step s = .next t →
    t.faultLog ≠ s.faultLog → t.status = .running)

/-- 10_state.md R31, 60_exceptions.md R212: Running after boot; Halted after a step exactly when it was Halted, or the word is
Unsupported, or it is a SYSCALL with 10 in register 2. -/
def Obligations.HaltedExactlyWhen : Prop :=
  (∀ c : Config, (State.boot c).status = .running) ∧
  ∀ s t : State, step s = .next t →
    (t.status = .halted ↔
      s.status = .halted ∨ (∃ u, decode (fetch s) = .error u) ∨
        ∃ f, decode (fetch s) = .ok (.syscall f) ∧ s.x 2#5 = 10#32)

/-- 60_exceptions.md R212, 10_state.md R43 step 1, R44: Halted is terminal for steps and for runs of any length. -/
def Obligations.HaltedIsTerminal : Prop :=
  ∀ s : State, s.status = .halted → step s = .next s ∧ ∀ n, runFor n s = .next s

/-- 10_state.md R32: the counter is 0 at boot and rises by 1, modulo 2^64, in every cycle that commits and only there.
The wrap is the spec's own decision D19, the uncommitted cycle its decision D9 (log entry 10). -/
def Obligations.CounterCountsCommittedCycles : Prop :=
  (∀ c : Config, (State.boot c).instructionCount = 0#64) ∧
  ∀ s t : State, step s = .next t →
    (s.status = .running → (∃ i, decode (fetch s) = .ok i) → t.instructionCount = s.instructionCount + 1#64) ∧
    (s.status = .halted ∨ (∃ u, decode (fetch s) = .error u) → t.instructionCount = s.instructionCount)

/-- 10_state.md R33, 60_exceptions.md R200 to R203, R206: a step appends the UnimplementedInstruction record for an Unsupported
word, the ArithmeticFault record for a divide by zero, each with the pc and the fetched word, and otherwise nothing.
The log and its payload are the spec's own decisions D10 and D11 (log entry 10). -/
def Obligations.FaultLogRecordsExactly : Prop :=
  ∀ s t : State, step s = .next t →
    (s.status = .running → (∃ u, decode (fetch s) = .error u) →
      t.faultLog = s.faultLog ++ [.unimplementedInstruction s.current.pc (fetch s)]) ∧
    (s.status = .running → (∃ i d, decode (fetch s) = .ok i ∧ i.divisor = some d ∧ s.x d = 0#32) →
      t.faultLog = s.faultLog ++ [.arithmeticFault s.current.pc (fetch s)]) ∧
    (s.status = .halted ∨ (∃ i, decode (fetch s) = .ok i ∧ ∀ d, i.divisor = some d → s.x d ≠ 0#32) →
      t.faultLog = s.faultLog)

/-- 10_state.md R47: how a run ends. Either by SYSCALL, committed and counted, a clean exit; or by an Unsupported word, with
nothing of that cycle committed and the log's last record naming it. Premise: the log is legal (part of State.Inv).
That an Unsupported word leaves the pc and commits nothing is the spec's own decision D9 (log entry 10). -/
def Obligations.EndOfRunTellsItsCause : Prop :=
  ∀ s t : State, LogLegal s → s.status = .running → step s = .next t → t.status = .halted →
    (CleanExit t ∧ (∃ f, decode (fetch s) = .ok (.syscall f)) ∧ t.current.pc = s.current.pc + 4#32 ∧
      t.instructionCount = s.instructionCount + 1#64) ∨
    (¬ CleanExit t ∧ t.current = s.current ∧ t.mem = s.mem ∧ t.instructionCount = s.instructionCount ∧
      t.faultLog.getLast? = some (.unimplementedInstruction s.current.pc (fetch s)))

/-- 20_memory.md R66: a store into the next instruction is what the next cycle fetches. Premise: memory is canonical. -/
def Obligations.StoreIsSeenByTheNextFetch : Prop :=
  ∀ (f : IType) (s : State), Memory.wf s.mem → effectiveAddress s f = s.current.pc + 4#32 →
    mapped4 s.config (effectiveAddress s f) = true →
    ∃ t, exec (.sw f) s = .next t ∧ fetch (commit t) = s.x f.rt

/-- 70_reset_and_hazards.md R242: HI and LO are read back by the very next instruction after a multiply. -/
def Obligations.ProductIsReadByTheNextInstruction : Prop :=
  ∀ (f g : RType) (s : State), g.rd ≠ 0#5 →
    ∃ t u v, exec (.mult f) s = .next t ∧ exec (.mflo g) (commit t) = .next u ∧ exec (.mfhi g) (commit t) = .next v ∧
      (v.next.reg g.rd).toInt * 2 ^ 32 + ((u.next.reg g.rd).toNat : Int) = (s.x f.rs).toInt * (s.x f.rt).toInt

/-! ### Runs, reset and the host -/

/-- 10_state.md R41, 70_reset_and_hazards.md R230, R233: every row of the reset table, for every value of the parameters. The
premise says that the image is not longer than the address space, so that no two of its words have the same address.
The addresses TEXT_BASE + 4*i modulo 2^32 are the model's reading (log entry 6); the rows of `next` and memory rest on the
spec's own decision D16, that of the fault log on its D10 (log entry 10). -/
def Obligations.BootMatchesTheResetTable : Prop :=
  ∀ c : Config, c.image.length ≤ 2 ^ 30 →
    (State.boot c).current.pc = c.textBase ∧ (∀ r : RegNum, (State.boot c).current.cell r = 0#32) ∧
    (State.boot c).current.hi = 0#32 ∧ (State.boot c).current.lo = 0#32 ∧
    (State.boot c).next = (State.boot c).current ∧ (State.boot c).status = .running ∧
    (State.boot c).instructionCount = 0#64 ∧ (State.boot c).faultLog = [] ∧ (State.boot c).config = c ∧
    (∀ (i : Nat) (h : i < c.image.length), mapped4 c (c.textBase + BitVec.ofNat 32 (4 * i)) = true → ∀ k < 4,
      ((State.boot c).mem.byte ((c.textBase + BitVec.ofNat 32 (4 * i)).toNat + k)).toNat =
        (c.image[i]'h).toNat / 2 ^ (8 * k) % 2 ^ 8) ∧
    (∀ a : Nat, (∀ i < c.image.length, mapped4 c (c.textBase + BitVec.ofNat 32 (4 * i)) = true →
        a < (c.textBase + BitVec.ofNat 32 (4 * i)).toNat ∨ (c.textBase + BitVec.ofNat 32 (4 * i)).toNat + 4 ≤ a) →
      (State.boot c).mem.byte a = 0#8)

/-- 70_reset_and_hazards.md R230, 90_conflicts.md C8: after whatever the host did, reset gives the boot state of the same
parameters; nothing survives.
That nothing survives is the spec's own decision D16 (log entry 10). -/
def Obligations.ResetForgetsEverything : Prop :=
  ∀ (hs : List HostAction) (s t : State), runActions hs s = .next t → t.hostReset = State.boot s.config

/-- 10_state.md R40, R22: the register mutators change the named register, none for register 0, and nothing else. That the
hidden copy `next` follows is the model's choice (log entry 3).
That they change nothing else is the spec's own decision D17 (log entry 10). -/
def Obligations.HostMutatorsChangeOneRegister : Prop :=
  (∀ (s : State) (i r : RegNum) (v : Word),
    (s.setRegister i v).current.cell r = (if r = i ∧ i ≠ 0#5 then v else s.current.cell r) ∧
    (s.setRegister i v).current.pc = s.current.pc ∧ (s.setRegister i v).current.hi = s.current.hi ∧
    (s.setRegister i v).current.lo = s.current.lo ∧ (s.setRegister i v).mem = s.mem ∧
    (s.setRegister i v).status = s.status ∧ (s.setRegister i v).instructionCount = s.instructionCount ∧
    (s.setRegister i v).faultLog = s.faultLog) ∧
  (∀ (s : State) (v : Word), (s.setHi v).current = { s.current with hi := v } ∧ (s.setHi v).mem = s.mem ∧
    (s.setHi v).status = s.status ∧ (s.setHi v).instructionCount = s.instructionCount ∧
    (s.setHi v).faultLog = s.faultLog) ∧
  (∀ (s : State) (v : Word), (s.setLo v).current = { s.current with lo := v } ∧ (s.setLo v).mem = s.mem ∧
    (s.setLo v).status = s.status ∧ (s.setLo v).instructionCount = s.instructionCount ∧
    (s.setLo v).faultLog = s.faultLog)

/-- 10_state.md R44: `run_for(n)` is up to `n` steps, stopping early when Halted, so it can be cut anywhere; with `n = 0` or
already Halted it changes nothing. -/
def Obligations.BoundedRunSplits : Prop :=
  (∀ s : State, runFor 0 s = .next s) ∧ (∀ (n : Nat) (s : State), s.status = .halted → runFor n s = .next s) ∧
  (∀ (n : Nat) (s t : State), step s = .next t → runFor (n + 1) s = runFor n t) ∧
  (∀ (m n : Nat) (s t : State), runFor m s = .next t → runFor (m + n) s = runFor n t)

/-- 10_state.md R32, R44: a bounded run that is still Running has executed and counted each of its steps.
The wrap of the counter is the spec's own decision D19 (log entry 10). -/
def Obligations.BoundedRunCounts : Prop :=
  ∀ (n : Nat) (s t : State), runFor n s = .next t → t.status = .running →
    t.instructionCount = s.instructionCount + BitVec.ofNat 64 n

/-- 10_state.md R32, 46_system.md R191: an Unsupported word met after `n` instructions leaves the counter at `n` more than it
was, the pc at the word, and the machine Halted, however long the run goes on.
That the cycle does not commit is the spec's own decision D9 (log entry 10). -/
def Obligations.UnsupportedWordEndsTheRunUncounted : Prop :=
  ∀ (n k : Nat) (s u : State), runFor n s = .next u → u.status = .running → (∃ e, decode (fetch u) = .error e) →
    ∃ t, runFor (n + 1 + k) s = .next t ∧ t.status = .halted ∧ t.current = u.current ∧
      t.instructionCount = s.instructionCount + BitVec.ofNat 64 n

/-- 10_state.md R45: run_to_completion has at most one result. -/
def Obligations.RunToCompletionIsUnique : Prop :=
  ∀ s t t' : State, RunsToCompletion s t → RunsToCompletion s t' → t = t'

/-! ### Invariants and isolation -/

/-- The boot state of every legal configuration meets the invariant, and the reset state with it.
It rests on the spec's own decisions D1 and D16 (log entry 10). -/
def Obligations.BootMeetsTheInvariant : Prop :=
  (∀ c : Config, c.wellFormed = true → (State.boot c).Inv) ∧ State.reset.Inv

/-- From EVERY state that meets the invariant a step leads to one that meets it: memory canonical and inside the regions,
register 0 zero (10_state.md R22), `next` equal to `current` (R20), the log legal (R47, 60_exceptions.md R209).
It rests on the spec's own decisions D1, D4, D9 (log entry 10). -/
def Obligations.StepKeepsTheInvariant : Prop :=
  ∀ s t : State, s.Inv → step s = .next t → t.Inv

/-- 10_state.md R46, 00_scope.md R13: every sequence of host actions from a legal boot runs through, without a fault or a
refusal, and keeps the invariant.
That `next` follows the host's register writes is the model's choice (log entry 3). -/
def Obligations.EveryExecutionIsLegal : Prop :=
  ∀ (c : Config) (hs : List HostAction), c.wellFormed = true →
    ∃ t, runActions hs (State.boot c) = .next t ∧ t.Inv ∧ t.config = c

/-- 10_state.md R20, R36, R46: the counter, the fault log and the hidden copy are invisible to programs: two runs of any length
that differ only there differ only there at the end. -/
def Obligations.ControlStateIsInvisibleToPrograms : Prop :=
  ∀ (n : Nat) (s s' t t' : State), SameToPrograms s s' → runFor n s = .next t → runFor n s' = .next t' →
    SameToPrograms t t'

/-- 20_memory.md R51: the order of the regions has no effect on any run. -/
def Obligations.RegionOrderHasNoEffect : Prop :=
  ∀ (n : Nat) (s t : State) (rs : List Region), rs.Perm s.config.regions → runFor n s = .next t →
    runFor n (s.withRegions rs) = .next (t.withRegions rs)

/-- 10_state.md R40, R46, 00_scope.md R13: from EVERY state that meets the invariant, every host action answers a state that
meets it and has the same parameters: a step, a bounded run of any length, a register write, a reset.
That `next` follows the host's register writes is the model's choice (log entry 3). -/
def Obligations.EveryHostActionKeepsTheInvariant : Prop :=
  ∀ (h : HostAction) (s : State), s.Inv → ∃ t, h.act s = .next t ∧ t.Inv ∧ t.config = s.config
end

