-- ==== Sys2Proof/Laws/Decode.lean ====
section
/-! SUPPORT. The fields of an encoded word, format by format, the word put together again from its fields, and the bytes of a
word. A concatenation is read bit by bit: `BitVec.getLsbD_cast`, then `BitVec.getLsbD_append`. -/

namespace Sys2Proof

/-- A slice of the word read at a place it covers is the word's bit there (00_scope.md R7). -/
theorem slice_bit (raw : Word) {lo n k j : Nat} (hj : j < n) (h : lo + j = k) :
    (decide (j < n) && raw.getLsbD (lo + j)) = raw.getLsbD k := by
  subst h; simp [hj]

/-! ### R-type -/

theorem opcodeField_encodeR (fn : BitVec 6) (f : RType) : opcodeField (encodeR fn f) = 0#6 := by
  refine BitVec.eq_of_getLsbD_eq fun k hk => ?_
  simp only [opcodeField, encodeR, BitVec.getLsbD_extractLsb', BitVec.getLsbD_cast, BitVec.getLsbD_append]
  interval_cases k <;> rfl

theorem functField_encodeR (fn : BitVec 6) (f : RType) : functField (encodeR fn f) = fn := by
  refine BitVec.eq_of_getLsbD_eq fun k hk => ?_
  simp only [functField, encodeR, BitVec.getLsbD_extractLsb', BitVec.getLsbD_cast, BitVec.getLsbD_append]
  interval_cases k <;> rfl

theorem rTypeFields_encodeR (fn : BitVec 6) (f : RType) : rTypeFields (encodeR fn f) = f := by
  obtain ⟨rs, rt, rd, sh⟩ := f
  simp only [rTypeFields, RType.mk.injEq]
  refine ⟨?_, ?_, ?_, ?_⟩ <;> refine BitVec.eq_of_getLsbD_eq fun k hk => ?_ <;>
    simp only [rsField, rtField, rdField, shamtField, encodeR, BitVec.getLsbD_extractLsb', BitVec.getLsbD_cast,
      BitVec.getLsbD_append] <;>
    interval_cases k <;> rfl

theorem encodeR_fields {raw : Word} (h : opcodeField raw = 0#6) : encodeR (functField raw) (rTypeFields raw) = raw := by
  rw [encodeR, ← h]
  refine BitVec.eq_of_getLsbD_eq fun k hk => ?_
  simp only [opcodeField, functField, rTypeFields, rsField, rtField, rdField, shamtField, BitVec.getLsbD_cast,
    BitVec.getLsbD_append, BitVec.getLsbD_extractLsb']
  split_ifs <;> refine slice_bit raw ?_ ?_ <;> omega

/-! ### I-type -/

theorem opcodeField_encodeI (op : BitVec 6) (f : IType) : opcodeField (encodeI op f) = op := by
  refine BitVec.eq_of_getLsbD_eq fun k hk => ?_
  simp only [opcodeField, encodeI, BitVec.getLsbD_extractLsb', BitVec.getLsbD_cast, BitVec.getLsbD_append]
  interval_cases k <;> rfl

theorem iTypeFields_encodeI (op : BitVec 6) (f : IType) : iTypeFields (encodeI op f) = f := by
  obtain ⟨rs, rt, imm⟩ := f
  simp only [iTypeFields, IType.mk.injEq]
  refine ⟨?_, ?_, ?_⟩ <;> refine BitVec.eq_of_getLsbD_eq fun k hk => ?_ <;>
    simp only [rsField, rtField, imm16Field, encodeI, BitVec.getLsbD_extractLsb', BitVec.getLsbD_cast,
      BitVec.getLsbD_append] <;>
    interval_cases k <;> rfl

theorem encodeI_fields (raw : Word) : encodeI (opcodeField raw) (iTypeFields raw) = raw := by
  refine BitVec.eq_of_getLsbD_eq fun k hk => ?_
  simp only [encodeI, opcodeField, iTypeFields, rsField, rtField, imm16Field, BitVec.getLsbD_cast,
    BitVec.getLsbD_append, BitVec.getLsbD_extractLsb']
  split_ifs <;> refine slice_bit raw ?_ ?_ <;> omega

/-! ### REGIMM: an I-type word whose `rt` bits are the branch code (30_encoding.md R81) -/

theorem encodeRegimm_eq (code : BitVec 5) (f : RegimmType) :
    encodeRegimm code f = encodeI 1#6 ⟨f.rs, code, f.imm16⟩ := rfl

theorem opcodeField_encodeRegimm (code : BitVec 5) (f : RegimmType) : opcodeField (encodeRegimm code f) = 1#6 := by
  rw [encodeRegimm_eq, opcodeField_encodeI]

theorem branchCodeField_encodeRegimm (code : BitVec 5) (f : RegimmType) :
    branchCodeField (encodeRegimm code f) = code := by
  have h := iTypeFields_encodeI 1#6 ⟨f.rs, code, f.imm16⟩
  simp only [iTypeFields, IType.mk.injEq] at h
  rw [encodeRegimm_eq]
  exact h.2.1

theorem regimmFields_encodeRegimm (code : BitVec 5) (f : RegimmType) : regimmFields (encodeRegimm code f) = f := by
  have h := iTypeFields_encodeI 1#6 ⟨f.rs, code, f.imm16⟩
  simp only [iTypeFields, IType.mk.injEq] at h
  simp only [regimmFields, encodeRegimm_eq, h.1, h.2.2]

theorem encodeRegimm_fields {raw : Word} (h : opcodeField raw = 1#6) :
    encodeRegimm (branchCodeField raw) (regimmFields raw) = raw := by
  have e := encodeI_fields raw
  rw [h] at e
  rw [encodeRegimm_eq]
  exact e

/-! ### J-type -/

theorem opcodeField_encodeJ (op : BitVec 6) (f : JType) : opcodeField (encodeJ op f) = op := by
  refine BitVec.eq_of_getLsbD_eq fun k hk => ?_
  simp only [opcodeField, encodeJ, BitVec.getLsbD_extractLsb', BitVec.getLsbD_cast, BitVec.getLsbD_append]
  interval_cases k <;> rfl

theorem jTypeFields_encodeJ (op : BitVec 6) (f : JType) : jTypeFields (encodeJ op f) = f := by
  obtain ⟨t⟩ := f
  simp only [jTypeFields, JType.mk.injEq]
  refine BitVec.eq_of_getLsbD_eq fun k hk => ?_
  simp only [target26Field, encodeJ, BitVec.getLsbD_extractLsb', BitVec.getLsbD_cast, BitVec.getLsbD_append]
  simp [hk]

theorem encodeJ_fields (raw : Word) : encodeJ (opcodeField raw) (jTypeFields raw) = raw := by
  refine BitVec.eq_of_getLsbD_eq fun k hk => ?_
  simp only [encodeJ, opcodeField, jTypeFields, target26Field, BitVec.getLsbD_cast, BitVec.getLsbD_append,
    BitVec.getLsbD_extractLsb']
  split_ifs <;> refine slice_bit raw ?_ ?_ <;> omega

/-! ### The tables, format by format (30_encoding.md R87 to R92) -/

theorem decode_encodeR {fn : BitVec 6} {c : RType → Instr} (h : rTypeOf fn = some c) (f : RType) :
    decode (encodeR fn f) = .ok (c f) := by
  simp [decode, opcodeField_encodeR, functField_encodeR, rTypeFields_encodeR, h]

theorem decode_encodeRegimm {code : BitVec 5} {c : RegimmType → Instr} (h : regimmOf code = some c) (f : RegimmType) :
    decode (encodeRegimm code f) = .ok (c f) := by
  simp [decode, opcodeField_encodeRegimm, branchCodeField_encodeRegimm, regimmFields_encodeRegimm, h]

/-- An entry found in a table is in the table. -/
theorem mem_of_lookup {α β : Type} [DecidableEq α] {l : List (α × β)} {a : α} {b : β} (h : l.lookup a = some b) :
    (a, b) ∈ l := by
  induction l with
  | nil => simp at h
  | cons p l ih =>
    obtain ⟨x, y⟩ := p
    simp only [List.lookup] at h
    split at h
    · rename_i he
      obtain rfl : a = x := by simpa using he
      obtain rfl := Option.some.inj h
      exact List.mem_cons_self ..
    · exact List.mem_cons_of_mem _ (ih h)

/-- The opcodes of the I-type table are none of the four that select another format. -/
theorem iTypeOf_opcode {op : BitVec 6} {c : IType → Instr} (h : iTypeOf op = some c) :
    op ≠ 0#6 ∧ op ≠ 1#6 ∧ op ≠ 2#6 ∧ op ≠ 3#6 := by
  refine ⟨?_, ?_, ?_, ?_⟩ <;> rintro rfl <;> exact absurd h (by simp [iTypeOf, iTypeTable, List.lookup])

theorem decode_encodeI {op : BitVec 6} {c : IType → Instr} (h : iTypeOf op = some c) (f : IType) :
    decode (encodeI op f) = .ok (c f) := by
  obtain ⟨h0, h1, h2, h3⟩ := iTypeOf_opcode h
  simp [decode, opcodeField_encodeI, iTypeFields_encodeI, h0, h1, h2, h3, h]

theorem decode_encodeJ (f : JType) :
    decode (encodeJ 0x02#6 f) = .ok (.j f) ∧ decode (encodeJ 0x03#6 f) = .ok (.jal f) := by
  constructor <;> simp [decode, opcodeField_encodeJ, jTypeFields_encodeJ]

/-! ### Bytes of a word (20_memory.md R53 to R55) -/

theorem byteOfWord_wordOfBytes (b0 b1 b2 b3 : Byte) :
    byteOfWord (wordOfBytes b0 b1 b2 b3) 0 = b0 ∧ byteOfWord (wordOfBytes b0 b1 b2 b3) 1 = b1 ∧
      byteOfWord (wordOfBytes b0 b1 b2 b3) 2 = b2 ∧ byteOfWord (wordOfBytes b0 b1 b2 b3) 3 = b3 := by
  refine ⟨?_, ?_, ?_, ?_⟩ <;> refine BitVec.eq_of_getLsbD_eq fun k hk => ?_ <;>
    simp only [byteOfWord, wordOfBytes, BitVec.getLsbD_extractLsb', BitVec.getLsbD_cast, BitVec.getLsbD_append] <;>
    interval_cases k <;> rfl

/-- The four bytes of a word, put together in the same order, are the word: a write followed by a read. -/
theorem wordOfBytes_byteOfWord (v : Word) :
    wordOfBytes (byteOfWord v 0) (byteOfWord v 1) (byteOfWord v 2) (byteOfWord v 3) = v := by
  refine BitVec.eq_of_getLsbD_eq fun k hk => ?_
  simp only [byteOfWord, wordOfBytes, BitVec.getLsbD_extractLsb', BitVec.getLsbD_cast, BitVec.getLsbD_append]
  split_ifs <;> refine slice_bit v ?_ ?_ <;> omega

end Sys2Proof
end

