-- ==== Sys2Proof/Laws/State.lean ====
section
/-! SUPPORT. One lemma for each field of each update of a snapshot and of the state, so that no proof unfolds a record. -/

namespace Sys2Proof.Machine

/-! ### Snapshots -/

@[simp] theorem Arch.setPc_pc (a : Arch) (v : Word) : (a.setPc v).pc = v := rfl
@[simp] theorem Arch.setPc_regs (a : Arch) (v : Word) : (a.setPc v).regs = a.regs := rfl
@[simp] theorem Arch.setPc_hi (a : Arch) (v : Word) : (a.setPc v).hi = a.hi := rfl
@[simp] theorem Arch.setPc_lo (a : Arch) (v : Word) : (a.setPc v).lo = a.lo := rfl
@[simp] theorem Arch.setPc_cell (a : Arch) (v : Word) (r : RegNum) : (a.setPc v).cell r = a.cell r := rfl
@[simp] theorem Arch.setPc_reg (a : Arch) (v : Word) (r : RegNum) : (a.setPc v).reg r = a.reg r := rfl

@[simp] theorem Arch.setHi_pc (a : Arch) (v : Word) : (a.setHi v).pc = a.pc := rfl
@[simp] theorem Arch.setHi_regs (a : Arch) (v : Word) : (a.setHi v).regs = a.regs := rfl
@[simp] theorem Arch.setHi_hi (a : Arch) (v : Word) : (a.setHi v).hi = v := rfl
@[simp] theorem Arch.setHi_lo (a : Arch) (v : Word) : (a.setHi v).lo = a.lo := rfl
@[simp] theorem Arch.setHi_cell (a : Arch) (v : Word) (r : RegNum) : (a.setHi v).cell r = a.cell r := rfl
@[simp] theorem Arch.setHi_reg (a : Arch) (v : Word) (r : RegNum) : (a.setHi v).reg r = a.reg r := rfl

@[simp] theorem Arch.setLo_pc (a : Arch) (v : Word) : (a.setLo v).pc = a.pc := rfl
@[simp] theorem Arch.setLo_regs (a : Arch) (v : Word) : (a.setLo v).regs = a.regs := rfl
@[simp] theorem Arch.setLo_hi (a : Arch) (v : Word) : (a.setLo v).hi = a.hi := rfl
@[simp] theorem Arch.setLo_lo (a : Arch) (v : Word) : (a.setLo v).lo = v := rfl
@[simp] theorem Arch.setLo_cell (a : Arch) (v : Word) (r : RegNum) : (a.setLo v).cell r = a.cell r := rfl
@[simp] theorem Arch.setLo_reg (a : Arch) (v : Word) (r : RegNum) : (a.setLo v).reg r = a.reg r := rfl

@[simp] theorem Arch.advance_pc (a : Arch) : (a.advance).pc = a.pc + 4#32 := rfl
@[simp] theorem Arch.advance_regs (a : Arch) : (a.advance).regs = a.regs := rfl
@[simp] theorem Arch.advance_hi (a : Arch) : (a.advance).hi = a.hi := rfl
@[simp] theorem Arch.advance_lo (a : Arch) : (a.advance).lo = a.lo := rfl
@[simp] theorem Arch.advance_cell (a : Arch) (r : RegNum) : (a.advance).cell r = a.cell r := rfl
@[simp] theorem Arch.advance_reg (a : Arch) (r : RegNum) : (a.advance).reg r = a.reg r := rfl

@[simp] theorem Arch.setReg_pc (a : Arch) (d : RegNum) (v : Word) : (a.setReg d v).pc = a.pc := by unfold Arch.setReg; split <;> rfl
@[simp] theorem Arch.setReg_hi (a : Arch) (d : RegNum) (v : Word) : (a.setReg d v).hi = a.hi := by unfold Arch.setReg; split <;> rfl
@[simp] theorem Arch.setReg_lo (a : Arch) (d : RegNum) (v : Word) : (a.setReg d v).lo = a.lo := by unfold Arch.setReg; split <;> rfl

/-- A write to register `d` is what a read of it sees, unless `d` is register 0; every other register keeps its value. -/
@[simp] theorem Arch.setReg_cell (a : Arch) (d r : RegNum) (v : Word) :
    (a.setReg d v).cell r = if r = d ∧ d ≠ 0#5 then v else a.cell r := by
  unfold Arch.setReg Arch.cell
  by_cases h : d = 0#5
  · simp [h]
  · by_cases hr : r = d
    · subst hr; simp [h]
    · have : d.toNat ≠ r.toNat := fun e => hr (BitVec.eq_of_toNat_eq e.symm)
      simp [h, hr, Vector.getElem_set_ne, this]

/-- A write to register 0 is discarded (10_state.md R22). -/
@[simp] theorem Arch.setReg_zero (a : Arch) (v : Word) : a.setReg 0#5 v = a := by simp [Arch.setReg]

/-- Register 0 reads as 0 (10_state.md R22). -/
@[simp] theorem Arch.reg_zero (a : Arch) : a.reg 0#5 = 0#32 := by simp [Arch.reg]

theorem Arch.reg_of_ne_zero (a : Arch) {r : RegNum} (h : r ≠ 0#5) : a.reg r = a.cell r := by simp [Arch.reg, h]

/-- Two snapshots with the same pc, registers, HI and LO are equal. -/
theorem Arch.ext_cells {a b : Arch} (hp : a.pc = b.pc) (hr : ∀ r, a.cell r = b.cell r) (hh : a.hi = b.hi)
    (hl : a.lo = b.lo) : a = b := by
  obtain ⟨p, rs, h, l⟩ := a
  obtain ⟨p', rs', h', l'⟩ := b
  obtain rfl : rs = rs' := by
    refine Vector.ext fun i hi => ?_
    have := hr (BitVec.ofNat 5 i)
    have e : i % 32 = i := Nat.mod_eq_of_lt hi
    simpa [Arch.cell, e] using this
  simp_all

/-! ### States -/

@[simp] theorem State.withNext_current (s : State) (a : Arch) : (s.withNext a).current = s.current := rfl
@[simp] theorem State.withNext_next (s : State) (a : Arch) : (s.withNext a).next = a := rfl
@[simp] theorem State.withNext_mem (s : State) (a : Arch) : (s.withNext a).mem = s.mem := rfl
@[simp] theorem State.withNext_status (s : State) (a : Arch) : (s.withNext a).status = s.status := rfl
@[simp] theorem State.withNext_instructionCount (s : State) (a : Arch) : (s.withNext a).instructionCount = s.instructionCount := rfl
@[simp] theorem State.withNext_faultLog (s : State) (a : Arch) : (s.withNext a).faultLog = s.faultLog := rfl
@[simp] theorem State.withNext_config (s : State) (a : Arch) : (s.withNext a).config = s.config := rfl

@[simp] theorem State.withMem_current (s : State) (m : Memory) : (s.withMem m).current = s.current := rfl
@[simp] theorem State.withMem_next (s : State) (m : Memory) : (s.withMem m).next = s.next := rfl
@[simp] theorem State.withMem_mem (s : State) (m : Memory) : (s.withMem m).mem = m := rfl
@[simp] theorem State.withMem_status (s : State) (m : Memory) : (s.withMem m).status = s.status := rfl
@[simp] theorem State.withMem_instructionCount (s : State) (m : Memory) : (s.withMem m).instructionCount = s.instructionCount := rfl
@[simp] theorem State.withMem_faultLog (s : State) (m : Memory) : (s.withMem m).faultLog = s.faultLog := rfl
@[simp] theorem State.withMem_config (s : State) (m : Memory) : (s.withMem m).config = s.config := rfl

@[simp] theorem State.withStatus_current (s : State) (u : Status) : (s.withStatus u).current = s.current := rfl
@[simp] theorem State.withStatus_next (s : State) (u : Status) : (s.withStatus u).next = s.next := rfl
@[simp] theorem State.withStatus_mem (s : State) (u : Status) : (s.withStatus u).mem = s.mem := rfl
@[simp] theorem State.withStatus_status (s : State) (u : Status) : (s.withStatus u).status = u := rfl
@[simp] theorem State.withStatus_instructionCount (s : State) (u : Status) : (s.withStatus u).instructionCount = s.instructionCount := rfl
@[simp] theorem State.withStatus_faultLog (s : State) (u : Status) : (s.withStatus u).faultLog = s.faultLog := rfl
@[simp] theorem State.withStatus_config (s : State) (u : Status) : (s.withStatus u).config = s.config := rfl

@[simp] theorem State.record_current (s : State) (r : FaultRecord) : (s.record r).current = s.current := rfl
@[simp] theorem State.record_next (s : State) (r : FaultRecord) : (s.record r).next = s.next := rfl
@[simp] theorem State.record_mem (s : State) (r : FaultRecord) : (s.record r).mem = s.mem := rfl
@[simp] theorem State.record_status (s : State) (r : FaultRecord) : (s.record r).status = s.status := rfl
@[simp] theorem State.record_instructionCount (s : State) (r : FaultRecord) : (s.record r).instructionCount = s.instructionCount := rfl
@[simp] theorem State.record_faultLog (s : State) (r : FaultRecord) : (s.record r).faultLog = s.faultLog ++ [r] := rfl
@[simp] theorem State.record_config (s : State) (r : FaultRecord) : (s.record r).config = s.config := rfl

@[simp] theorem State.patch_current (s : State) (a : Arch) : (s.patch a).current = a := rfl
@[simp] theorem State.patch_next (s : State) (a : Arch) : (s.patch a).next = a := rfl
@[simp] theorem State.patch_mem (s : State) (a : Arch) : (s.patch a).mem = s.mem := rfl
@[simp] theorem State.patch_status (s : State) (a : Arch) : (s.patch a).status = s.status := rfl
@[simp] theorem State.patch_instructionCount (s : State) (a : Arch) : (s.patch a).instructionCount = s.instructionCount := rfl
@[simp] theorem State.patch_faultLog (s : State) (a : Arch) : (s.patch a).faultLog = s.faultLog := rfl
@[simp] theorem State.patch_config (s : State) (a : Arch) : (s.patch a).config = s.config := rfl

@[simp] theorem commit_current (s : State) : (commit s).current = s.next := rfl
@[simp] theorem commit_next (s : State) : (commit s).next = s.next := rfl
@[simp] theorem commit_mem (s : State) : (commit s).mem = s.mem := rfl
@[simp] theorem commit_status (s : State) : (commit s).status = s.status := rfl
@[simp] theorem commit_instructionCount (s : State) : (commit s).instructionCount = s.instructionCount + 1#64 := rfl
@[simp] theorem commit_faultLog (s : State) : (commit s).faultLog = s.faultLog := rfl
@[simp] theorem commit_config (s : State) : (commit s).config = s.config := rfl

@[simp] theorem State.withRegions_current (s : State) (rs : List Region) : (s.withRegions rs).current = s.current := rfl
@[simp] theorem State.withRegions_next (s : State) (rs : List Region) : (s.withRegions rs).next = s.next := rfl
@[simp] theorem State.withRegions_mem (s : State) (rs : List Region) : (s.withRegions rs).mem = s.mem := rfl
@[simp] theorem State.withRegions_status (s : State) (rs : List Region) : (s.withRegions rs).status = s.status := rfl
@[simp] theorem State.withRegions_instructionCount (s : State) (rs : List Region) : (s.withRegions rs).instructionCount = s.instructionCount := rfl
@[simp] theorem State.withRegions_faultLog (s : State) (rs : List Region) : (s.withRegions rs).faultLog = s.faultLog := rfl
@[simp] theorem State.withRegions_config (s : State) (rs : List Region) : (s.withRegions rs).config = { s.config with regions := rs } := rfl

@[simp] theorem raiseUnimplemented_current (s : State) (raw : Word) : (raiseUnimplemented s raw).current = s.current := rfl
@[simp] theorem raiseUnimplemented_next (s : State) (raw : Word) : (raiseUnimplemented s raw).next = s.next := rfl
@[simp] theorem raiseUnimplemented_mem (s : State) (raw : Word) : (raiseUnimplemented s raw).mem = s.mem := rfl
@[simp] theorem raiseUnimplemented_status (s : State) (raw : Word) : (raiseUnimplemented s raw).status = .halted := rfl
@[simp] theorem raiseUnimplemented_instructionCount (s : State) (raw : Word) : (raiseUnimplemented s raw).instructionCount = s.instructionCount := rfl
@[simp] theorem raiseUnimplemented_faultLog (s : State) (raw : Word) : (raiseUnimplemented s raw).faultLog = s.faultLog ++ [.unimplementedInstruction s.current.pc raw] := rfl
@[simp] theorem raiseUnimplemented_config (s : State) (raw : Word) : (raiseUnimplemented s raw).config = s.config := rfl

@[simp] theorem recordArithmetic_current (s : State) (raw : Word) : (recordArithmetic s raw).current = s.current := rfl
@[simp] theorem recordArithmetic_next (s : State) (raw : Word) : (recordArithmetic s raw).next = s.next := rfl
@[simp] theorem recordArithmetic_mem (s : State) (raw : Word) : (recordArithmetic s raw).mem = s.mem := rfl
@[simp] theorem recordArithmetic_status (s : State) (raw : Word) : (recordArithmetic s raw).status = s.status := rfl
@[simp] theorem recordArithmetic_instructionCount (s : State) (raw : Word) : (recordArithmetic s raw).instructionCount = s.instructionCount := rfl
@[simp] theorem recordArithmetic_faultLog (s : State) (raw : Word) : (recordArithmetic s raw).faultLog = s.faultLog ++ [.arithmeticFault s.current.pc raw] := rfl
@[simp] theorem recordArithmetic_config (s : State) (raw : Word) : (recordArithmetic s raw).config = s.config := rfl

@[simp] theorem State.blank_current (c : Config) : (State.blank c).current = Arch.reset c.textBase := rfl
@[simp] theorem State.blank_next (c : Config) : (State.blank c).next = Arch.reset c.textBase := rfl
@[simp] theorem State.blank_mem (c : Config) : (State.blank c).mem = [] := rfl
@[simp] theorem State.blank_status (c : Config) : (State.blank c).status = .running := rfl
@[simp] theorem State.blank_instructionCount (c : Config) : (State.blank c).instructionCount = 0#64 := rfl
@[simp] theorem State.blank_faultLog (c : Config) : (State.blank c).faultLog = [] := rfl
@[simp] theorem State.blank_config (c : Config) : (State.blank c).config = c := rfl

@[simp] theorem State.begin_eq (s : State) : s.begin = s.current.advance := rfl

/-- A register of the reset snapshot holds 0 (10_state.md R41). -/
@[simp] theorem Arch.reset_cell (b : Word) (r : RegNum) : (Arch.reset b).cell r = 0#32 := by
  simp [Arch.cell, Arch.reset]

@[simp] theorem Arch.reset_pc (b : Word) : (Arch.reset b).pc = b := rfl
@[simp] theorem Arch.reset_hi (b : Word) : (Arch.reset b).hi = 0#32 := rfl
@[simp] theorem Arch.reset_lo (b : Word) : (Arch.reset b).lo = 0#32 := rfl

end Sys2Proof.Machine
end

