-- ==== Sys2Proof/Laws/Memory.lean ====
section
/-! SUPPORT. Memory: a read after a write, the canonical form, and where bytes may be listed. Every memory operation of the
machine goes through `Memory.setByte`, so its three lemmas carry the rest. -/

namespace Sys2Proof.Machine

/-! ### Canonical memories -/

theorem Memory.wf_nil : Memory.wf [] := ⟨List.Pairwise.nil, by simp⟩

theorem Memory.wf_tail {c : Host.Cell} {m : Memory} (h : Memory.wf (c :: m)) : Memory.wf m :=
  ⟨(List.pairwise_cons.1 h.1).2, fun d hd => h.2 d (List.mem_cons_of_mem _ hd)⟩

/-- An address below every listed one reads as an unlisted byte. -/
theorem Memory.byte_of_below {m : Memory} {a : Nat} (h : ∀ c ∈ m, a < c.1) : m.byte a = Memory.unlisted := by
  induction m with
  | nil => rfl
  | cons c m ih =>
    have hc : ¬c.1 = a := by have := h c (by simp); omega
    simp only [Memory.byte, hc, if_false]
    exact ih fun d hd => h d (by simp [hd])

theorem Memory.byte_consByte {m : Memory} {a : Nat} {v : Byte} (b : Nat) (h : ∀ c ∈ m, a < c.1) :
    (Memory.consByte a v m).byte b = if b = a then v else m.byte b := by
  unfold Memory.consByte
  split
  · rename_i hv
    split
    · subst b; rw [Memory.byte_of_below h, hv]
    · rfl
  · simp [Memory.byte, eq_comm]

/-- The one law of a byte written: it reads back, and every other byte is as before. -/
theorem Memory.byte_setByte {m : Memory} (hm : Memory.wf m) (a b : Nat) (v : Byte) :
    (m.setByte a v).byte b = if b = a then v else m.byte b := by
  induction m with
  | nil => exact Memory.byte_consByte b (by simp)
  | cons c m ih =>
    obtain ⟨k, w⟩ := c
    have hk : ∀ d ∈ m, k < d.1 := (List.pairwise_cons.1 hm.1).1
    simp only [Memory.setByte]
    split
    · rename_i hlt
      refine Memory.byte_consByte b fun d hd => ?_
      rcases List.mem_cons.1 hd with rfl | hd
      · exact hlt
      · exact lt_trans hlt (hk d hd)
    · split
      · rename_i _ he
        subst he
        rw [Memory.byte_consByte b hk]
        by_cases hb : b = a
        · simp [hb]
        · have : ¬a = b := fun e => hb e.symm
          simp [hb, Memory.byte, this]
      · rename_i hlt hne
        by_cases hb : k = b
        · subst hb; simp [Memory.byte, Ne.symm hne]
        · simp [Memory.byte, hb, ih (Memory.wf_tail hm)]

/-- What a byte written may list: the old entries and the address written. -/
theorem Memory.mem_setByte {m : Memory} {a : Nat} {v : Byte} {c : Host.Cell} (h : c ∈ m.setByte a v) :
    c ∈ m ∨ c.1 = a := by
  have cons : ∀ n : Memory, c ∈ Memory.consByte a v n → c ∈ n ∨ c.1 = a := by
    intro n hn
    unfold Memory.consByte at hn
    split at hn
    · exact .inl hn
    · rcases List.mem_cons.1 hn with rfl | hn
      · exact .inr rfl
      · exact .inl hn
  induction m with
  | nil => simpa using cons _ h
  | cons d m ih =>
    obtain ⟨k, w⟩ := d
    simp only [Memory.setByte] at h
    split at h
    · exact cons _ h
    · split at h
      · rcases cons _ h with h | h
        · exact .inl (List.mem_cons_of_mem _ h)
        · exact .inr h
      · rcases List.mem_cons.1 h with rfl | h
        · exact .inl (List.mem_cons_self ..)
        · exact (ih h).imp_left (List.mem_cons_of_mem _)

theorem Memory.wf_consByte {m : Memory} {a : Nat} (v : Byte) (hm : Memory.wf m) (h : ∀ c ∈ m, a < c.1) :
    Memory.wf (Memory.consByte a v m) := by
  unfold Memory.consByte
  split
  · exact hm
  · rename_i hv
    refine ⟨List.pairwise_cons.2 ⟨h, hm.1⟩, fun c hc => ?_⟩
    rcases List.mem_cons.1 hc with rfl | hc
    · exact hv
    · exact hm.2 c hc

/-- Writing a byte keeps the canonical form. -/
theorem Memory.wf_setByte {m : Memory} (hm : Memory.wf m) (a : Nat) (v : Byte) : Memory.wf (m.setByte a v) := by
  induction m with
  | nil => exact Memory.wf_consByte v Memory.wf_nil (by simp)
  | cons c m ih =>
    obtain ⟨k, w⟩ := c
    have hk : ∀ d ∈ m, k < d.1 := (List.pairwise_cons.1 hm.1).1
    simp only [Memory.setByte]
    split
    · rename_i hlt
      refine Memory.wf_consByte v hm fun d hd => ?_
      rcases List.mem_cons.1 hd with rfl | hd
      · exact hlt
      · exact lt_trans hlt (hk d hd)
    · split
      · rename_i _ he
        subst he
        exact Memory.wf_consByte v (Memory.wf_tail hm) hk
      · rename_i hlt hne
        have ih := ih (Memory.wf_tail hm)
        refine ⟨List.pairwise_cons.2 ⟨fun d hd => ?_, ih.1⟩, fun d hd => ?_⟩
        · rcases Memory.mem_setByte hd with hd | hd
          · exact hk d hd
          · show k < d.1
            omega
        · rcases List.mem_cons.1 hd with rfl | hd
          · exact hm.2 _ (List.mem_cons_self ..)
          · exact ih.2 d hd

/-- Two canonical memories that read the same everywhere are equal, so that equal memories are equal data. -/
theorem Memory.eq_of_byte {m n : Memory} (hm : Memory.wf m) (hn : Memory.wf n) (h : ∀ a, m.byte a = n.byte a) :
    m = n := by
  induction m generalizing n with
  | nil =>
    cases n with
    | nil => rfl
    | cons d n =>
      have := h d.1
      simp only [Memory.byte, if_true] at this
      exact absurd this.symm (hn.2 d (List.mem_cons_self ..))
  | cons c m ih =>
    cases n with
    | nil =>
      have := h c.1
      simp only [Memory.byte, if_true] at this
      exact absurd this (hm.2 c (List.mem_cons_self ..))
    | cons d n =>
      have hc := (List.pairwise_cons.1 hm.1).1
      have hd := (List.pairwise_cons.1 hn.1).1
      have key : c.1 = d.1 := by
        rcases lt_trichotomy c.1 d.1 with hlt | he | hgt
        · have := h c.1
          rw [Memory.byte_of_below (m := d :: n) (a := c.1)] at this
          · simp only [Memory.byte, if_true] at this
            exact absurd this (hm.2 c (List.mem_cons_self ..))
          · intro e he
            rcases List.mem_cons.1 he with rfl | he
            · exact hlt
            · exact lt_trans hlt (hd e he)
        · exact he
        · have := h d.1
          rw [Memory.byte_of_below (m := c :: m) (a := d.1)] at this
          · simp only [Memory.byte, if_true] at this
            exact absurd this.symm (hn.2 d (List.mem_cons_self ..))
          · intro e he
            rcases List.mem_cons.1 he with rfl | he
            · exact hgt
            · exact lt_trans hgt (hc e he)
      obtain ⟨k, v⟩ := c
      obtain ⟨k', w⟩ := d
      obtain rfl : k = k' := key
      have hv : v = w := by simpa [Memory.byte] using h k
      subst hv
      rw [ih (Memory.wf_tail hm) (Memory.wf_tail hn) fun a => ?_]
      by_cases ha : k = a
      · subst ha; rw [Memory.byte_of_below hc, Memory.byte_of_below hd]
      · simpa [Memory.byte, ha] using h a

/-! ### Words -/

theorem Memory.wf_setWord {m : Memory} (hm : Memory.wf m) (a : Nat) (v : Word) : Memory.wf (m.setWord a v) :=
  Memory.wf_setByte (Memory.wf_setByte (Memory.wf_setByte (Memory.wf_setByte hm _ _) _ _) _ _) _ _

/-- A word written: its four bytes, and every other byte as before. -/
theorem Memory.byte_setWord {m : Memory} (hm : Memory.wf m) (a b : Nat) (v : Word) :
    (m.setWord a v).byte b = if a ≤ b ∧ b < a + 4 then byteOfWord v (b - a) else m.byte b := by
  have h0 := Memory.wf_setByte hm a (byteOfWord v 0)
  have h1 := Memory.wf_setByte h0 (a + 1) (byteOfWord v 1)
  have h2 := Memory.wf_setByte h1 (a + 2) (byteOfWord v 2)
  unfold Memory.setWord
  rw [Memory.byte_setByte h2, Memory.byte_setByte h1, Memory.byte_setByte h0, Memory.byte_setByte hm]
  by_cases hb : a ≤ b ∧ b < a + 4
  · obtain ⟨k, rfl⟩ := Nat.exists_eq_add_of_le hb.1
    have hk : k < 4 := by omega
    interval_cases k <;> simp
  · have : b ≠ a ∧ b ≠ a + 1 ∧ b ≠ a + 2 ∧ b ≠ a + 3 := by omega
    simp [this, hb]

theorem Memory.mem_setWord {m : Memory} {a : Nat} {v : Word} {c : Host.Cell} (h : c ∈ m.setWord a v) :
    c ∈ m ∨ (a ≤ c.1 ∧ c.1 < a + 4) := by
  rcases Memory.mem_setByte h with h | h
  · rcases Memory.mem_setByte h with h | h
    · rcases Memory.mem_setByte h with h | h
      · rcases Memory.mem_setByte h with h | h
        · exact .inl h
        · exact .inr (by omega)
      · exact .inr (by omega)
    · exact .inr (by omega)
  · exact .inr (by omega)

/-! ### The bus -/

theorem mapped4_iff {c : Config} {a : Word} :
    mapped4 c a = true ↔ ∃ r ∈ c.regions, r.lower ≤ a.toNat ∧ a.toNat + 4 ≤ r.upper := by
  simp [mapped4, Region.admits]

theorem read32_mapped {c : Config} {a : Word} (m : Memory) (h : mapped4 c a = true) :
    read32 c m a = m.word a.toNat := by simp [read32, h]

theorem read32_unmapped {c : Config} {a : Word} (m : Memory) (h : mapped4 c a = false) :
    read32 c m a = 0#32 := by simp [read32, h]

theorem write32_mapped {c : Config} {a : Word} (m : Memory) (v : Word) (h : mapped4 c a = true) :
    write32 c m a v = m.setWord a.toNat v := by simp [write32, h]

theorem write32_unmapped {c : Config} {a : Word} (m : Memory) (v : Word) (h : mapped4 c a = false) :
    write32 c m a v = m := by simp [write32, h]

/-- A bus write keeps the canonical form. -/
theorem wf_write32 {m : Memory} (hm : Memory.wf m) (c : Config) (a v : Word) : Memory.wf (write32 c m a v) := by
  unfold write32
  split
  · exact Memory.wf_setWord hm _ _
  · exact hm

/-- A bus write lists only mapped addresses. -/
theorem mapped_write32 {c : Config} {m : Memory} (h : MemoryMapped c m) (a v : Word) :
    MemoryMapped c (write32 c m a v) := by
  unfold write32
  split
  · rename_i hm
    intro b hb
    rcases Memory.mem_setWord hb with hb | hb
    · exact h b hb
    · obtain ⟨r, hr, h1, h2⟩ := mapped4_iff.1 hm
      exact ⟨r, hr, by omega, by omega⟩
  · exact h

/-- Each store of the load-store unit is one bus write (20_memory.md R57, R60). -/
theorem wf_memWrite1 {m : Memory} (hm : Memory.wf m) (c : Config) (a : Word) (v : Byte) : Memory.wf (memWrite1 c m a v) :=
  wf_write32 hm _ _ _
theorem wf_memWrite2 {m : Memory} (hm : Memory.wf m) (c : Config) (a : Word) (v : BitVec 16) :
    Memory.wf (memWrite2 c m a v) := wf_write32 hm _ _ _
theorem wf_memWrite4 {m : Memory} (hm : Memory.wf m) (c : Config) (a v : Word) : Memory.wf (memWrite4 c m a v) :=
  wf_write32 hm _ _ _

/-- The loader keeps the canonical form and lists only mapped addresses. -/
theorem loadWords_legal {c : Config} (ws : List Word) (a : Word) {m : Memory} (hm : Memory.wf m)
    (hc : MemoryMapped c m) : Memory.wf (loadWords c a ws m) ∧ MemoryMapped c (loadWords c a ws m) := by
  induction ws generalizing a m with
  | nil => exact ⟨hm, hc⟩
  | cons w ws ih => exact ih (a + 4#32) (wf_write32 hm c a w) (mapped_write32 hc a w)

/-- The reset state's memory is canonical. -/
theorem reset_mem_wf : Memory.wf State.reset.mem := Memory.wf_nil

end Sys2Proof.Machine
end

