-- ==== Sys2Proof/Laws/Ops.lean ====
section
/-! SUPPORT. One lemma for each shared answer of the meanings, saying all it can do, so that no proof unfolds it. -/

namespace Sys2Proof.Machine

theorem regWritten_setReg (s t : State) (d : RegNum) (v : Word) (h : ∀ r, t.next.cell r = (s.current.setReg d v).cell r) :
    RegWritten s t d v := fun r => by rw [h, Arch.setReg_cell]

theorem controlKept_withNext (s : State) (a : Arch) : ControlKept s (s.withNext a) := ⟨⟨rfl, rfl, rfl⟩, rfl, rfl⟩

/-- A register written: that register and the pc, nothing else. -/
theorem answerReg_spec (s : State) (d : RegNum) (v : Word) : ∃ t, answerReg s d v = .next t ∧ OnlyReg s t d v := by
  refine ⟨_, rfl, ?_, ?_, ?_, fun _ => rfl, controlKept_withNext _ _⟩
  · intro r; simp
  · simp [PcAdvanced]
  · simp [HiLoKept]

/-- HI and LO written: those and the pc, nothing else. -/
theorem answerHiLo_spec (s : State) (h l : Word) : ∃ t, answerHiLo s h l = .next t ∧ OnlyHiLo s t h l :=
  ⟨_, rfl, rfl, rfl, fun _ => rfl, rfl, fun _ => rfl, controlKept_withNext _ _⟩

/-- A branch or a jump without link: the pc, nothing else. -/
theorem answerBranch_spec (s : State) (taken : Bool) (target : Word) :
    ∃ t, answerBranch s taken target = .next t ∧ OnlyPc s t (if taken then target else s.current.pc + 4#32) := by
  refine ⟨_, rfl, ?_, ?_, ?_, fun _ => rfl, controlKept_withNext _ _⟩
  · cases taken <;> rfl
  · intro r; cases taken <;> rfl
  · cases taken <;> exact ⟨rfl, rfl⟩

/-- A jump with link: the link register and the pc, nothing else. -/
theorem answerLink_spec (s : State) (d : RegNum) (v target : Word) :
    ∃ t, answerLink s d v target = .next t ∧ OnlyLink s t d v target := by
  refine ⟨_, rfl, rfl, ?_, ?_, fun _ => rfl, controlKept_withNext _ _⟩
  · intro r; simp
  · simp [HiLoKept]

/-- A store: memory becomes `m`; the pc is the default one, registers, HI, LO and control are kept. -/
theorem answerMem_spec (s : State) (m : Memory) :
    ∃ t, answerMem s m = .next t ∧ t.mem = m ∧ RegsKept s t ∧ PcAdvanced s t ∧ HiLoKept s t ∧ ControlKept s t :=
  ⟨_, rfl, rfl, fun _ => rfl, rfl, ⟨rfl, rfl⟩, ⟨⟨rfl, rfl, rfl⟩, rfl, rfl⟩⟩

/-- A division by zero: one record and the pc, nothing else (43_muldiv_hilo.md R143). -/
theorem answerDivZero_spec (s : State) (raw : Word) :
    ∃ t, answerDivZero s raw = .next t ∧ OnlyRecord s t (.arithmeticFault s.current.pc raw) :=
  ⟨_, rfl, rfl, fun _ => rfl, rfl, ⟨rfl, rfl⟩, fun _ => rfl, rfl, rfl, rfl, rfl⟩

/-- Commit never turns a next state into a stop, nor a stop into a next state. -/
theorem commitOutcome_next {o : Host.Outcome State Fault Refusal} {t : State} (h : commitOutcome o = .next t) :
    ∃ u, o = .next u ∧ t = commit u := by
  cases o with
  | next u => exact ⟨u, rfl, (Host.Outcome.next.inj h).symm⟩
  | fault r => cases r
  | refused r => cases h

end Sys2Proof.Machine
end

