-- ==== Sys2Proof/Laws/Exec.lean ====
section
/-! SUPPORT. What exec can do, said once for all instructions: one of seven shapes. -/

namespace Sys2Proof.Machine

/-- Every instruction answers in one of these shapes. A proof about all instructions cites this and the `answer*_spec` of
Laws/Ops.lean, and unfolds no meaning. -/
theorem exec_shapes (i : Instr) (s : State) :
    (∃ d v, i.destination = some d ∧ i.storeWidth = 0 ∧ i.isBranchOrJump = false ∧ exec i s = answerReg s d v) ∨
    (∃ h l, i.destination = none ∧ i.storeWidth = 0 ∧ (i.mayWriteHi = false → h = s.current.hi) ∧
      (i.mayWriteLo = false → l = s.current.lo) ∧ exec i s = answerHiLo s h l) ∨
    (∃ b p, i.isBranchOrJump = true ∧ i.storeWidth = 0 ∧ exec i s = answerBranch s b p) ∨
    (∃ d v p, i.destination = some d ∧ i.isBranchOrJump = true ∧ i.storeWidth = 0 ∧ exec i s = answerLink s d v p) ∨
    (∃ (f : IType) (v : Word), (i = .sb f ∨ i = .sh f ∨ i = .sw f) ∧
      exec i s = answerMem s (write32 s.config s.mem (effectiveAddress s f) v)) ∨
    (∃ d, i.divisor = some d ∧ s.x d = 0#32 ∧ exec i s = answerDivZero s (encode i)) ∨
    (∃ f, i = .syscall f ∧ exec i s = execSyscall f s) := by
  cases i with
  | div f =>
    by_cases h : s.x f.rt = 0#32
    · exact .inr (.inr (.inr (.inr (.inr (.inl ⟨f.rt, rfl, h, by simp [exec, execDiv, h]⟩)))))
    · exact .inr (.inl ⟨_, _, rfl, rfl, nofun, nofun, by simp only [exec, execDiv, h, if_false]; rfl⟩)
  | divu f =>
    by_cases h : s.x f.rt = 0#32
    · exact .inr (.inr (.inr (.inr (.inr (.inl ⟨f.rt, rfl, h, by simp [exec, execDivu, h]⟩)))))
    · exact .inr (.inl ⟨_, _, rfl, rfl, nofun, nofun, by simp only [exec, execDivu, h, if_false]; rfl⟩)
  | syscall f => exact .inr (.inr (.inr (.inr (.inr (.inr ⟨f, rfl, rfl⟩)))))
  | sb f => exact .inr (.inr (.inr (.inr (.inl ⟨f, _, .inl rfl, rfl⟩))))
  | sh f => exact .inr (.inr (.inr (.inr (.inl ⟨f, _, .inr (.inl rfl), rfl⟩))))
  | sw f => exact .inr (.inr (.inr (.inr (.inl ⟨f, _, .inr (.inr rfl), rfl⟩))))
  | mult _ | multu _ => exact .inr (.inl ⟨_, _, rfl, rfl, nofun, nofun, rfl⟩)
  | mthi _ => exact .inr (.inl ⟨_, _, rfl, rfl, nofun, fun _ => rfl, rfl⟩)
  | mtlo _ => exact .inr (.inl ⟨_, _, rfl, rfl, fun _ => rfl, nofun, rfl⟩)
  | jal _ | jalr _ => exact .inr (.inr (.inr (.inl ⟨_, _, _, rfl, rfl, rfl, rfl⟩)))
  | beq _ | bne _ | blez _ | bgtz _ | bltz _ | bgez _ | j _ | jr _ =>
    exact .inr (.inr (.inl ⟨_, _, rfl, rfl, rfl⟩))
  | sll _ | srl _ | sra _ | mfhi _ | mflo _ | add _ | addu _ | sub _ | subu _ | and _ | or _ | xor _ | nor _ | slt _
  | addi _ | addiu _ | slti _ | andi _ | ori _ | xori _ | lui _ | lb _ | lh _ | lw _ =>
    exact .inl ⟨_, _, rfl, rfl, rfl, rfl⟩

/-- A divide by a register that reads as 0 (43_muldiv_hilo.md R144, R145). -/
theorem exec_divZero {i : Instr} {s : State} {d : RegNum} (hd : i.divisor = some d) (h : s.x d = 0#32) :
    exec i s = answerDivZero s (encode i) := by
  cases i <;> simp_all [Instr.divisor, exec, execDiv, execDivu]

end Sys2Proof.Machine
end

