-- ==== Sys2Proof/Laws/PerInstr.lean ====
section
/-! SUPPORT. Families of lemmas with one lemma per constructor of Instr (LAWS.json, "per_instruction"). -/

namespace Sys2Proof.Laws

/-! ### The row of the opcode table: the word of an instruction has the bits its row fixes (30_encoding.md R89 to R92) -/

theorem rowMask_encodeR (fn : BitVec 6) (f : RType) :
    encodeR fn f &&& 0xFC00003F#32 = encodeR fn ⟨0#5, 0#5, 0#5, 0#5⟩ := by
  refine BitVec.eq_of_getLsbD_eq fun k hk => ?_
  simp only [encodeR, BitVec.getLsbD_and, BitVec.getLsbD_cast, BitVec.getLsbD_append]
  interval_cases k <;> simp

theorem rowMask_encodeI (op : BitVec 6) (f : IType) :
    encodeI op f &&& 0xFC000000#32 = encodeI op ⟨0#5, 0#5, 0#16⟩ := by
  refine BitVec.eq_of_getLsbD_eq fun k hk => ?_
  simp only [encodeI, BitVec.getLsbD_and, BitVec.getLsbD_cast, BitVec.getLsbD_append]
  interval_cases k <;> simp

theorem rowMask_encodeRegimm (code : BitVec 5) (f : RegimmType) :
    encodeRegimm code f &&& 0xFC1F0000#32 = encodeRegimm code ⟨0#5, 0#16⟩ := by
  refine BitVec.eq_of_getLsbD_eq fun k hk => ?_
  simp only [encodeRegimm, BitVec.getLsbD_and, BitVec.getLsbD_cast, BitVec.getLsbD_append]
  interval_cases k <;> simp

theorem rowMask_encodeJ (op : BitVec 6) (f : JType) : encodeJ op f &&& 0xFC000000#32 = encodeJ op ⟨0#26⟩ := by
  refine BitVec.eq_of_getLsbD_eq fun k hk => ?_
  simp only [encodeJ, BitVec.getLsbD_and, BitVec.getLsbD_cast, BitVec.getLsbD_append]
  interval_cases k <;> simp

namespace TableRow

/-- Under the mask of its row, the word of `i` is the row's pattern. -/
def Statement (i : Instr) : Prop := encode i &&& i.row.mask = i.row.pattern

theorem sll (f : RType) : Statement (.sll f) := (rowMask_encodeR _ f).trans rfl
theorem srl (f : RType) : Statement (.srl f) := (rowMask_encodeR _ f).trans rfl
theorem sra (f : RType) : Statement (.sra f) := (rowMask_encodeR _ f).trans rfl
theorem jr (f : RType) : Statement (.jr f) := (rowMask_encodeR _ f).trans rfl
theorem jalr (f : RType) : Statement (.jalr f) := (rowMask_encodeR _ f).trans rfl
theorem syscall (f : RType) : Statement (.syscall f) := (rowMask_encodeR _ f).trans rfl
theorem mfhi (f : RType) : Statement (.mfhi f) := (rowMask_encodeR _ f).trans rfl
theorem mthi (f : RType) : Statement (.mthi f) := (rowMask_encodeR _ f).trans rfl
theorem mflo (f : RType) : Statement (.mflo f) := (rowMask_encodeR _ f).trans rfl
theorem mtlo (f : RType) : Statement (.mtlo f) := (rowMask_encodeR _ f).trans rfl
theorem mult (f : RType) : Statement (.mult f) := (rowMask_encodeR _ f).trans rfl
theorem multu (f : RType) : Statement (.multu f) := (rowMask_encodeR _ f).trans rfl
theorem div (f : RType) : Statement (.div f) := (rowMask_encodeR _ f).trans rfl
theorem divu (f : RType) : Statement (.divu f) := (rowMask_encodeR _ f).trans rfl
theorem add (f : RType) : Statement (.add f) := (rowMask_encodeR _ f).trans rfl
theorem addu (f : RType) : Statement (.addu f) := (rowMask_encodeR _ f).trans rfl
theorem sub (f : RType) : Statement (.sub f) := (rowMask_encodeR _ f).trans rfl
theorem subu (f : RType) : Statement (.subu f) := (rowMask_encodeR _ f).trans rfl
theorem and (f : RType) : Statement (.and f) := (rowMask_encodeR _ f).trans rfl
theorem or (f : RType) : Statement (.or f) := (rowMask_encodeR _ f).trans rfl
theorem xor (f : RType) : Statement (.xor f) := (rowMask_encodeR _ f).trans rfl
theorem nor (f : RType) : Statement (.nor f) := (rowMask_encodeR _ f).trans rfl
theorem slt (f : RType) : Statement (.slt f) := (rowMask_encodeR _ f).trans rfl
theorem beq (f : IType) : Statement (.beq f) := (rowMask_encodeI _ f).trans rfl
theorem bne (f : IType) : Statement (.bne f) := (rowMask_encodeI _ f).trans rfl
theorem blez (f : IType) : Statement (.blez f) := (rowMask_encodeI _ f).trans rfl
theorem bgtz (f : IType) : Statement (.bgtz f) := (rowMask_encodeI _ f).trans rfl
theorem addi (f : IType) : Statement (.addi f) := (rowMask_encodeI _ f).trans rfl
theorem addiu (f : IType) : Statement (.addiu f) := (rowMask_encodeI _ f).trans rfl
theorem slti (f : IType) : Statement (.slti f) := (rowMask_encodeI _ f).trans rfl
theorem andi (f : IType) : Statement (.andi f) := (rowMask_encodeI _ f).trans rfl
theorem ori (f : IType) : Statement (.ori f) := (rowMask_encodeI _ f).trans rfl
theorem xori (f : IType) : Statement (.xori f) := (rowMask_encodeI _ f).trans rfl
theorem lui (f : IType) : Statement (.lui f) := (rowMask_encodeI _ f).trans rfl
theorem lb (f : IType) : Statement (.lb f) := (rowMask_encodeI _ f).trans rfl
theorem lh (f : IType) : Statement (.lh f) := (rowMask_encodeI _ f).trans rfl
theorem lw (f : IType) : Statement (.lw f) := (rowMask_encodeI _ f).trans rfl
theorem sb (f : IType) : Statement (.sb f) := (rowMask_encodeI _ f).trans rfl
theorem sh (f : IType) : Statement (.sh f) := (rowMask_encodeI _ f).trans rfl
theorem sw (f : IType) : Statement (.sw f) := (rowMask_encodeI _ f).trans rfl
theorem bltz (f : RegimmType) : Statement (.bltz f) := (rowMask_encodeRegimm _ f).trans rfl
theorem bgez (f : RegimmType) : Statement (.bgez f) := (rowMask_encodeRegimm _ f).trans rfl
theorem j (f : JType) : Statement (.j f) := (rowMask_encodeJ _ f).trans rfl
theorem jal (f : JType) : Statement (.jal f) := (rowMask_encodeJ _ f).trans rfl

end TableRow

end Sys2Proof.Laws
end

