-- ==== Sys2Proof/Laws/Step.lean ====
section
/-! SUPPORT. What a step, a bounded run and a host action can do, said once (10_state.md R43 to R46). -/

namespace Sys2Proof.Machine

/-- Every step is one of three: nothing while Halted, the Unsupported outcome, or an executed and committed instruction. -/
theorem step_cases {s t : State} (h : step s = .next t) :
    (s.status = .halted ∧ t = s) ∨
    (s.status = .running ∧ ∃ u, decode (fetch s) = .error u ∧ t = raiseUnimplemented s u.raw) ∨
    (s.status = .running ∧ ∃ i u, decode (fetch s) = .ok i ∧ exec i s = .next u ∧ t = commit u) := by
  unfold step at h
  split at h
  · rename_i hs
    exact .inl ⟨hs, (Host.Outcome.next.inj h).symm⟩
  · rename_i hs
    split at h
    · rename_i u hu
      exact .inr (.inl ⟨hs, u, hu, (Host.Outcome.next.inj h).symm⟩)
    · rename_i i hi
      obtain ⟨u, hu, ht⟩ := commitOutcome_next h
      exact .inr (.inr ⟨hs, i, u, hi, hu, ht⟩)

theorem step_of_halted {s : State} (h : s.status = .halted) : step s = .next s := by simp [step, h]

theorem step_of_ok {s t : State} {i : Instr} (hs : s.status = .running) (hi : decode (fetch s) = .ok i)
    (ht : exec i s = .next t) : step s = .next (commit t) := by simp [step, hs, hi, ht, commitOutcome]

theorem step_of_error {s : State} {u : Unsupported} (hs : s.status = .running) (hu : decode (fetch s) = .error u) :
    step s = .next (raiseUnimplemented s u.raw) := by simp [step, hs, hu]

/-- The word an `Unsupported` outcome carries is the word decoded (30_encoding.md R86). -/
theorem decode_error_eq {raw : Word} {u : Unsupported} (h : decode raw = .error u) : u = unsupported raw := by
  unfold decode at h
  repeat' split at h
  all_goals first | exact (Except.error.inj h).symm | cases h

theorem runFor_of_halted {s : State} (h : s.status = .halted) (n : Nat) : runFor n s = .next s := by
  cases n with
  | zero => rfl
  | succ n => simp [runFor, h]

theorem runFor_succ {s t : State} (hs : s.status = .running) (ht : step s = .next t) (n : Nat) :
    runFor (n + 1) s = runFor n t := by simp [runFor, hs, ht]

/-- A run of `n + 1` steps that answers a next state: nothing while Halted, else one step and then `n`. -/
theorem runFor_cases {n : Nat} {s t : State} (h : runFor (n + 1) s = .next t) :
    (s.status = .halted ∧ t = s) ∨ (s.status = .running ∧ ∃ u, step s = .next u ∧ runFor n u = .next t) := by
  simp only [runFor] at h
  split at h
  · rename_i hs
    exact .inl ⟨hs, (Host.Outcome.next.inj h).symm⟩
  · rename_i hs
    split at h
    · rename_i u hu
      exact .inr ⟨hs, u, hu, h⟩
    · cases h
    · cases h

/-- A property that every step keeps is kept by every bounded run. -/
theorem runFor_induct {P : State → Prop} (hstep : ∀ s t, P s → step s = .next t → P t) :
    ∀ (n : Nat) {s t : State}, P s → runFor n s = .next t → P t
  | 0, s, t, hs, h => by obtain rfl := Host.Outcome.next.inj h; exact hs
  | n + 1, s, t, hs, h => by
    rcases runFor_cases h with ⟨_, rfl⟩ | ⟨_, u, hu, h⟩
    · exact hs
    · exact runFor_induct hstep n (hstep s u hs hu) h

/-- With the default parameters and the empty image, boot is the reset state (log entry 2). -/
theorem boot_default : State.boot Config.default = State.reset := rfl

end Sys2Proof.Machine
end

