-- ==== Sys2Proof/Tests/Slice0.lean ====
section
/-! SUPPORT. The model's own tests. Every expected value comes from the spec: the encodings of 30_encoding.md and the vectors
of 95_test_vectors.md, whose row each test names. Then, for each obligation with hypotheses, a witness: a concrete state and
operands that meet them together. -/

namespace Sys2Proof.Tests
open Sys2Proof Sys2Proof.Machine

/-! ### Well-formedness: each check refuses an ill-formed term -/

theorem test_unsupported_wrong_opcode : (Unsupported.mk 0x92080000#32 0x23#6 0#6).wellFormed = false := by decide
theorem test_unsupported_wrong_funct : (Unsupported.mk 0x92080000#32 0x24#6 1#6).wellFormed = false := by decide
theorem test_unsupported_right : (Unsupported.mk 0x92080000#32 0x24#6 0#6).wellFormed = true := by decide
theorem test_region_empty : (Region.mk 0x1000 0x1000).wellFormed = false := by decide
theorem test_region_beyond_the_space : (Region.mk 0x1000 0x100000001).wellFormed = false := by decide
theorem test_region_up_to_the_top : (Region.mk 0x1000 0x100000000).wellFormed = true := by decide
theorem test_config_bad_region : (Config.mk 0#32 [⟨8, 4⟩] []).wellFormed = false := by decide
theorem test_config_overlap : (Config.mk 0#32 [⟨0, 0x2000⟩, ⟨0x1FFF, 0x3000⟩] []).wellFormed = false := by decide
theorem test_config_adjacent : (Config.mk 0#32 [⟨0, 0x2000⟩, ⟨0x2000, 0x3000⟩] []).wellFormed = true := by decide
theorem test_config_default : Config.default.wellFormed = true := by decide
theorem test_canonical_r_type : (Instr.add ⟨9#5, 10#5, 8#5, 31#5⟩).canonical = false := by decide
theorem test_canonical_shift : (Instr.sll ⟨9#5, 10#5, 8#5, 4#5⟩).canonical = false := by decide
theorem test_canonical_i_type : (Instr.lui ⟨9#5, 8#5, 0xFFFF#16⟩).canonical = false := by decide
theorem test_canonical_branch : (Instr.blez ⟨9#5, 31#5, 4#16⟩).canonical = false := by decide
theorem test_canonical_holds : (Instr.jalr ⟨9#5, 0#5, 31#5, 0#5⟩).canonical = true := by decide

/-! ### Decoding: a word of every constructor, written from the spec's encodings (R82 to R92; 95_test_vectors.md) -/

def decodes (w : Word) (i : Instr) : Prop := decode w = .ok i ∧ encode i = w
def isUnsupported (w : Word) (op fn : BitVec 6) : Prop := decode w = .error ⟨w, op, fn⟩

theorem test_decode_shift :
    decodes 0x000A4100#32 (.sll ⟨0#5, 10#5, 8#5, 4#5⟩) ∧
    decodes 0x000A4102#32 (.srl ⟨0#5, 10#5, 8#5, 4#5⟩) ∧
    decodes 0x000A47C3#32 (.sra ⟨0#5, 10#5, 8#5, 31#5⟩) ∧
    decodes 0x012A4100#32 (.sll ⟨9#5, 10#5, 8#5, 4#5⟩) := by
  unfold decodes; decide
theorem test_decode_register_jump :
    decodes 0x03E00008#32 (.jr ⟨31#5, 0#5, 0#5, 0#5⟩) ∧
    decodes 0x0120F809#32 (.jalr ⟨9#5, 0#5, 31#5, 0#5⟩) ∧
    decodes 0x01204009#32 (.jalr ⟨9#5, 0#5, 8#5, 0#5⟩) := by
  unfold decodes; decide
theorem test_decode_syscall :
    decodes 0x0000000C#32 (.syscall ⟨0#5, 0#5, 0#5, 0#5⟩) ∧
    decodes 0x03FFFFCC#32 (.syscall ⟨31#5, 31#5, 31#5, 31#5⟩) := by
  unfold decodes; decide
theorem test_decode_hilo :
    decodes 0x00004010#32 (.mfhi ⟨0#5, 0#5, 8#5, 0#5⟩) ∧
    decodes 0x01200011#32 (.mthi ⟨9#5, 0#5, 0#5, 0#5⟩) ∧
    decodes 0x00004012#32 (.mflo ⟨0#5, 0#5, 8#5, 0#5⟩) ∧
    decodes 0x01200013#32 (.mtlo ⟨9#5, 0#5, 0#5, 0#5⟩) := by
  unfold decodes; decide
theorem test_decode_muldiv :
    decodes 0x012A0018#32 (.mult ⟨9#5, 10#5, 0#5, 0#5⟩) ∧
    decodes 0x012A0019#32 (.multu ⟨9#5, 10#5, 0#5, 0#5⟩) ∧
    decodes 0x012A001A#32 (.div ⟨9#5, 10#5, 0#5, 0#5⟩) ∧
    decodes 0x012A001B#32 (.divu ⟨9#5, 10#5, 0#5, 0#5⟩) := by
  unfold decodes; decide
theorem test_decode_arithmetic :
    decodes 0x012A4020#32 (.add ⟨9#5, 10#5, 8#5, 0#5⟩) ∧
    decodes 0x012A4021#32 (.addu ⟨9#5, 10#5, 8#5, 0#5⟩) ∧
    decodes 0x012A4022#32 (.sub ⟨9#5, 10#5, 8#5, 0#5⟩) ∧
    decodes 0x012A4023#32 (.subu ⟨9#5, 10#5, 8#5, 0#5⟩) ∧
    decodes 0x03FFFFE0#32 (.add ⟨31#5, 31#5, 31#5, 31#5⟩) := by
  unfold decodes; decide
theorem test_decode_logic :
    decodes 0x012A4024#32 (.and ⟨9#5, 10#5, 8#5, 0#5⟩) ∧
    decodes 0x012A4025#32 (.or ⟨9#5, 10#5, 8#5, 0#5⟩) ∧
    decodes 0x012A4026#32 (.xor ⟨9#5, 10#5, 8#5, 0#5⟩) ∧
    decodes 0x012A4027#32 (.nor ⟨9#5, 10#5, 8#5, 0#5⟩) ∧
    decodes 0x012A402A#32 (.slt ⟨9#5, 10#5, 8#5, 0#5⟩) := by
  unfold decodes; decide
theorem test_decode_branch :
    decodes 0x112A0002#32 (.beq ⟨9#5, 10#5, 2#16⟩) ∧
    decodes 0x1520FFFD#32 (.bne ⟨9#5, 0#5, 0xFFFD#16⟩) ∧
    decodes 0x19200004#32 (.blez ⟨9#5, 0#5, 4#16⟩) ∧
    decodes 0x1D200004#32 (.bgtz ⟨9#5, 0#5, 4#16⟩) := by
  unfold decodes; decide
theorem test_decode_immediate :
    decodes 0x2128FFFF#32 (.addi ⟨9#5, 8#5, 0xFFFF#16⟩) ∧
    decodes 0x25288000#32 (.addiu ⟨9#5, 8#5, 0x8000#16⟩) ∧
    decodes 0x2928FFFF#32 (.slti ⟨9#5, 8#5, 0xFFFF#16⟩) := by
  unfold decodes; decide
theorem test_decode_logic_immediate :
    decodes 0x3128FF00#32 (.andi ⟨9#5, 8#5, 0xFF00#16⟩) ∧
    decodes 0x35288001#32 (.ori ⟨9#5, 8#5, 0x8001#16⟩) ∧
    decodes 0x3928FFFF#32 (.xori ⟨9#5, 8#5, 0xFFFF#16⟩) ∧
    decodes 0x3C088001#32 (.lui ⟨0#5, 8#5, 0x8001#16⟩) := by
  unfold decodes; decide
theorem test_decode_load :
    decodes 0x82080001#32 (.lb ⟨16#5, 8#5, 1#16⟩) ∧
    decodes 0x86080002#32 (.lh ⟨16#5, 8#5, 2#16⟩) ∧
    decodes 0x8E08FFFC#32 (.lw ⟨16#5, 8#5, 0xFFFC#16⟩) := by
  unfold decodes; decide
theorem test_decode_store :
    decodes 0xA2090003#32 (.sb ⟨16#5, 9#5, 3#16⟩) ∧
    decodes 0xA6090002#32 (.sh ⟨16#5, 9#5, 2#16⟩) ∧
    decodes 0xAE090001#32 (.sw ⟨16#5, 9#5, 1#16⟩) := by
  unfold decodes; decide
theorem test_decode_regimm :
    decodes 0x05200004#32 (.bltz ⟨9#5, 4#16⟩) ∧
    decodes 0x05210004#32 (.bgez ⟨9#5, 4#16⟩) ∧
    decodes 0x04800001#32 (.bltz ⟨4#5, 1#16⟩) := by
  unfold decodes; decide
theorem test_decode_jump :
    decodes 0x0BFFFFFF#32 (.j ⟨0x3FFFFFF#26⟩) ∧
    decodes 0x0C100008#32 (.jal ⟨0x0100008#26⟩) := by
  unfold decodes; decide
/-- S1, Y11: the fault path of the Decoder. -/
theorem test_decode_unsupported :
    isUnsupported 0x012A402B#32 0x00#6 0x2B#6 ∧
    isUnsupported 0x05220004#32 0x01#6 0x04#6 ∧
    isUnsupported 0x05310004#32 0x01#6 0x04#6 ∧
    isUnsupported 0x92080000#32 0x24#6 0x00#6 ∧
    isUnsupported 0x2D280001#32 0x0B#6 0x01#6 ∧
    isUnsupported 0xFFFFFFFF#32 0x3F#6 0x3F#6 ∧
    isUnsupported 0x7C000000#32 0x1F#6 0x00#6 ∧
    isUnsupported 0x0000000D#32 0x00#6 0x0D#6 := by
  unfold isUnsupported; decide

/-- R98: the word 0 is SLL r0, r0, 0. -/
theorem test_decode_nop : decode 0#32 = .ok (.sll ⟨0#5, 0#5, 0#5, 0#5⟩) := by decide
theorem test_decode_bytes : decodeBytes 0x05#8 0x00#8 0x01#8 0x24#8 = .ok (.addiu ⟨0#5, 1#5, 5#16⟩) := by decide
theorem test_table_has_44_rows : opcodeTable.length = 44 := by decide
theorem test_table_mnemonics_differ : (opcodeTable.map OpcodeRow.mnemonic).Nodup := by decide

/-- No word matches two rows: two patterns differ in a bit that both masks select. -/
theorem test_rows_do_not_overlap :
    opcodeTable.Pairwise (fun r q => r.pattern &&& (r.mask &&& q.mask) ≠ q.pattern &&& (r.mask &&& q.mask)) := by decide

theorem test_table_word : decodeTableWord 32 0x24010005 = some (.addiu ⟨0#5, 1#5, 5#16⟩) := by decide
theorem test_table_word_refused : decodeTableWord 32 0x0109502B = none := by decide

/-! ### One step on the vectors of 95_test_vectors.md -/

/-- The reset state with the word `w` placed at the pc and the registers `rs` set by the host. -/
def start (w : Word) (rs : List (RegNum × Word)) : State :=
  rs.foldl (fun s p => s.setRegister p.1 p.2) (State.reset.withFetchWord 32 w.toNat)

/-- The same with the pc at `pc`, as a jump leaves it. -/
def startAt (pc w : Word) (rs : List (RegNum × Word)) : State :=
  rs.foldl (fun s p => s.setRegister p.1 p.2)
    ((State.reset.patch (State.reset.current.setPc pc)).withFetchWord 32 w.toNat)

/-- The section Q's preset HI and LO. -/
def startQ (w : Word) (rs : List (RegNum × Word)) : State :=
  ((start w rs).setHi 0xAAAAAAAA#32).setLo 0xBBBBBBBB#32

/-- The section M's memory: two words at 0x10000000. -/
def startM (w : Word) (rs : List (RegNum × Word)) : State :=
  let s := start w rs
  s.withMem (write32 s.config (write32 s.config s.mem 0x10000000#32 0x8899AABB#32) 0x10000004#32 0x11223344#32)

/-- The rows M19 to M22 and M37 to M39: the last word of the data region. -/
def startEdge (w : Word) (rs : List (RegNum × Word)) : State :=
  let s := start w rs
  s.withMem (write32 s.config s.mem 0x100FFFFC#32 0xFFFFFFFF#32)

/-- One step, observed by `f`; none where the step stops. -/
def after {α : Type} (s : State) (f : State → α) : Option α :=
  match step s with
  | .next t    => some (f t)
  | .fault _   => none
  | .refused _ => none

def pcCount (t : State) : Word × BitVec 64 := (t.current.pc, t.instructionCount)
def hiLo (t : State) : Word × Word := (t.current.hi, t.current.lo)
/-- Eight bytes as two words. -/
def words (a : Word) (t : State) : Word × Word := (t.hostRead32 a, t.hostRead32 (a + 4#32))

/-- S3.1, A1. -/
theorem test_add_wraps : after (start 0x012A4020#32 [(9#5, 0x7FFFFFFF#32), (10#5, 1#32)]) (fun t => t.x 8#5) = some 0x80000000#32 := by decide
/-- A12. -/
theorem test_add_same_register : after (start 0x01294820#32 [(9#5, 0x40000001#32)]) (fun t => t.x 9#5) = some 0x80000002#32 := by decide
/-- A3. -/
theorem test_addu : after (start 0x012A4021#32 [(9#5, 0xFFFFFFFF#32), (10#5, 2#32)]) (fun t => t.x 8#5) = some 1#32 := by decide
/-- A4. -/
theorem test_sub : after (start 0x012A4022#32 [(9#5, 0x80000000#32), (10#5, 1#32)]) (fun t => t.x 8#5) = some 0x7FFFFFFF#32 := by decide
/-- A6. -/
theorem test_subu : after (start 0x012A4023#32 [(9#5, 0#32), (10#5, 1#32)]) (fun t => t.x 8#5) = some 0xFFFFFFFF#32 := by decide
/-- A8. -/
theorem test_addi : after (start 0x21280001#32 [(9#5, 0x7FFFFFFF#32)]) (fun t => t.x 8#5) = some 0x80000000#32 := by decide
/-- A9. -/
theorem test_addiu : after (start 0x25288000#32 [(9#5, 0x00010000#32)]) (fun t => t.x 8#5) = some 0x00008000#32 := by decide
/-- A11. -/
theorem test_add_to_register_zero : after (start 0x012A0020#32 [(9#5, 3#32), (10#5, 4#32)]) (fun t => (t.current.cell 0#5, pcCount t)) = some (0#32, 0x00400004#32, 1#64) := by decide
/-- L1. -/
theorem test_and : after (start 0x012A4024#32 [(9#5, 0xF0F0FF00#32), (10#5, 0x0FF0F0F0#32)]) (fun t => t.x 8#5) = some 0x00F0F000#32 := by decide
/-- L2. -/
theorem test_or : after (start 0x012A4025#32 [(9#5, 0xF0F0FF00#32), (10#5, 0x0FF0F0F0#32)]) (fun t => t.x 8#5) = some 0xFFF0FFF0#32 := by decide
/-- L3. -/
theorem test_xor : after (start 0x012A4026#32 [(9#5, 0xF0F0FF00#32), (10#5, 0x0FF0F0F0#32)]) (fun t => t.x 8#5) = some 0xFF000FF0#32 := by decide
/-- L4. -/
theorem test_nor : after (start 0x012A4027#32 [(9#5, 0xF0F0FF00#32), (10#5, 0x0FF0F0F0#32)]) (fun t => t.x 8#5) = some 0x000F000F#32 := by decide
/-- L7. -/
theorem test_andi : after (start 0x3128FF00#32 [(9#5, 0xFFFFFFFF#32)]) (fun t => t.x 8#5) = some 0x0000FF00#32 := by decide
/-- L8. -/
theorem test_ori : after (start 0x35288001#32 [(9#5, 0x12340000#32)]) (fun t => t.x 8#5) = some 0x12348001#32 := by decide
/-- L9. -/
theorem test_xori : after (start 0x3928FFFF#32 [(9#5, 0xFFFFFFFF#32)]) (fun t => t.x 8#5) = some 0xFFFF0000#32 := by decide
/-- L11. -/
theorem test_lui : after (start 0x3C088001#32 [(8#5, 0x0000FFFF#32)]) (fun t => t.x 8#5) = some 0x80010000#32 := by decide
/-- H1. -/
theorem test_sll : after (start 0x000A4100#32 [(10#5, 0xF000000F#32)]) (fun t => t.x 8#5) = some 0x000000F0#32 := by decide
/-- H4. -/
theorem test_srl : after (start 0x000A4102#32 [(10#5, 0xF000000F#32)]) (fun t => t.x 8#5) = some 0x0F000000#32 := by decide
/-- H6. -/
theorem test_sra_negative : after (start 0x000A4103#32 [(10#5, 0xF000000F#32)]) (fun t => t.x 8#5) = some 0xFF000000#32 := by decide
/-- H7. -/
theorem test_sra_positive : after (start 0x000A4103#32 [(10#5, 0x7000000F#32)]) (fun t => t.x 8#5) = some 0x07000000#32 := by decide
/-- H16. -/
theorem test_slt_least : after (start 0x012A402A#32 [(9#5, 0x80000000#32), (10#5, 0x7FFFFFFF#32)]) (fun t => t.x 8#5) = some 1#32 := by decide
/-- H14. -/
theorem test_slt_zero_overwrites : after (start 0x012A402A#32 [(8#5, 0x11111111#32), (9#5, 1#32), (10#5, 0xFFFFFFFF#32)]) (fun t => t.x 8#5) = some 0#32 := by decide
/-- H18. -/
theorem test_slti_signed : after (start 0x2928FFFF#32 [(8#5, 0x11111111#32), (9#5, 0#32)]) (fun t => t.x 8#5) = some 0#32 := by decide
/-- H17. -/
theorem test_slti_less : after (start 0x2928FFFF#32 [(9#5, 0xFFFFFFFE#32)]) (fun t => t.x 8#5) = some 1#32 := by decide
/-- Q2. -/
theorem test_mult : after (startQ 0x012A0018#32 [(9#5, 0xFFFFFFFF#32), (10#5, 2#32)]) hiLo = some (0xFFFFFFFF#32, 0xFFFFFFFE#32) := by decide
/-- Q3. -/
theorem test_mult_least : after (startQ 0x012A0018#32 [(9#5, 0x80000000#32), (10#5, 0x80000000#32)]) hiLo = some (0x40000000#32, 0#32) := by decide
/-- Q9. -/
theorem test_multu : after (startQ 0x012A0019#32 [(9#5, 0xFFFFFFFF#32), (10#5, 0xFFFFFFFF#32)]) hiLo = some (0xFFFFFFFE#32, 1#32) := by decide
/-- Q18. -/
theorem test_div_truncates : after (startQ 0x012A001A#32 [(9#5, 0xFFFFFFF9#32), (10#5, 2#32)]) hiLo = some (0xFFFFFFFF#32, 0xFFFFFFFD#32) := by decide
/-- Q24. -/
theorem test_div_overflow : after (startQ 0x012A001A#32 [(9#5, 0x80000000#32), (10#5, 0xFFFFFFFF#32)]) hiLo = some (0#32, 0x80000000#32) := by decide
/-- Q31. -/
theorem test_divu : after (startQ 0x012A001B#32 [(9#5, 0xFFFFFFF9#32), (10#5, 2#32)]) hiLo = some (1#32, 0x7FFFFFFC#32) := by decide
/-- S5.1. -/
theorem test_divu_by_zero : after (startQ 0x012A001B#32 [(9#5, 5#32), (10#5, 0#32)]) (fun t => (hiLo t, t.faultLog, t.status)) = some ((0xAAAAAAAA#32, 0xBBBBBBBB#32), [.arithmeticFault 0x00400000#32 0x012A001B#32], .running) := by decide
/-- Q37. -/
theorem test_mfhi : after (startQ 0x00004010#32 []) (fun t => t.x 8#5) = some 0xAAAAAAAA#32 := by decide
/-- Q38. -/
theorem test_mflo : after (startQ 0x00004012#32 []) (fun t => t.x 8#5) = some 0xBBBBBBBB#32 := by decide
/-- Q39. -/
theorem test_mthi : after (startQ 0x01200011#32 [(9#5, 0xCAFEF00D#32)]) hiLo = some (0xCAFEF00D#32, 0xBBBBBBBB#32) := by decide
/-- Q40. -/
theorem test_mtlo : after (startQ 0x01200013#32 [(9#5, 0xCAFEF00D#32)]) hiLo = some (0xAAAAAAAA#32, 0xCAFEF00D#32) := by decide
/-- M5. -/
theorem test_lb : after (startM 0x82080004#32 [(8#5, 0x55555555#32), (16#5, 0x10000000#32)]) (fun t => t.x 8#5) = some 0x00000044#32 := by decide
/-- M2. -/
theorem test_lb_signed : after (startM 0x82080001#32 [(8#5, 0x55555555#32), (16#5, 0x10000000#32)]) (fun t => t.x 8#5) = some 0xFFFFFFAA#32 := by decide
/-- M7. -/
theorem test_lh_signed : after (startM 0x86080001#32 [(8#5, 0x55555555#32), (16#5, 0x10000000#32)]) (fun t => t.x 8#5) = some 0xFFFF99AA#32 := by decide
/-- M9. -/
theorem test_lh : after (startM 0x86080003#32 [(8#5, 0x55555555#32), (16#5, 0x10000000#32)]) (fun t => t.x 8#5) = some 0x00004488#32 := by decide
/-- M13. -/
theorem test_lw_unaligned : after (startM 0x8E080003#32 [(8#5, 0x55555555#32), (16#5, 0x10000000#32)]) (fun t => t.x 8#5) = some 0x22334488#32 := by decide
/-- M16. -/
theorem test_lw_base_is_destination : after (startM 0x8E100004#32 [(16#5, 0x10000000#32)]) (fun t => t.x 16#5) = some 0x11223344#32 := by decide
/-- M19. -/
theorem test_lw_last_word : after (startEdge 0x8E080000#32 [(8#5, 0x55555555#32), (16#5, 0x100FFFFC#32)]) (fun t => t.x 8#5) = some 0xFFFFFFFF#32 := by decide
/-- M20. -/
theorem test_lw_across_the_end : after (startEdge 0x8E080000#32 [(8#5, 0x55555555#32), (16#5, 0x100FFFFD#32)]) (fun t => t.x 8#5) = some 0#32 := by decide
/-- M21. -/
theorem test_lb_last_byte : after (startEdge 0x82080000#32 [(8#5, 0x55555555#32), (16#5, 0x100FFFFF#32)]) (fun t => t.x 8#5) = some 0#32 := by decide
/-- M23. -/
theorem test_lw_wrapped_address : after (startM 0x8C08FFFC#32 [(8#5, 0x55555555#32)]) (fun t => t.x 8#5) = some 0#32 := by decide
/-- M27. -/
theorem test_sb : after (startM 0xA2090003#32 [(9#5, 0xCAFEF00D#32), (16#5, 0x10000000#32)]) (words 0x10000000#32) = some (0x0D99AABB#32, 0x11223344#32) := by decide
/-- M31. -/
theorem test_sh : after (startM 0xA6090003#32 [(9#5, 0xCAFEF00D#32), (16#5, 0x10000000#32)]) (words 0x10000000#32) = some (0x0D99AABB#32, 0x112233F0#32) := by decide
/-- M33. -/
theorem test_sw_unaligned : after (startM 0xAE090001#32 [(9#5, 0xCAFEF00D#32), (16#5, 0x10000000#32)]) (words 0x10000000#32) = some (0xFEF00DBB#32, 0x112233CA#32) := by decide
/-- M35. -/
theorem test_sw_unmapped : after (startM 0xAE090000#32 [(9#5, 0xCAFEF00D#32), (16#5, 0x20000000#32)]) (words 0x10000000#32) = some (0x8899AABB#32, 0x11223344#32) := by decide
/-- M37. -/
theorem test_sb_last_byte : after (startEdge 0xA2090000#32 [(9#5, 0xCAFEF00D#32), (16#5, 0x100FFFFF#32)]) (words 0x100FFFFC#32) = some (0xFFFFFFFF#32, 0#32) := by decide
/-- M39. -/
theorem test_sw_last_word : after (startEdge 0xAE090000#32 [(9#5, 0xCAFEF00D#32), (16#5, 0x100FFFFC#32)]) (words 0x100FFFFC#32) = some (0xCAFEF00D#32, 0#32) := by decide
/-- S6.1, B1. -/
theorem test_beq_taken : after (start 0x112A0002#32 [(9#5, 7#32), (10#5, 7#32)]) pcCount = some (0x0040000C#32, 1#64) := by decide
/-- S6.2, B2. -/
theorem test_beq_not_taken : after (start 0x112A0002#32 [(9#5, 7#32), (10#5, 8#32)]) pcCount = some (0x00400004#32, 1#64) := by decide
/-- B6. -/
theorem test_beq_forward : after (start 0x10007FFF#32 []) pcCount = some (0x00420000#32, 1#64) := by decide
/-- B7. -/
theorem test_bne_backward : after (startAt 0x00400014#32 0x1520FFFD#32 [(9#5, 1#32)]) pcCount = some (0x0040000C#32, 1#64) := by decide
/-- B8. -/
theorem test_bne_not_taken : after (startAt 0x00400014#32 0x1520FFFD#32 [(9#5, 0#32)]) pcCount = some (0x00400018#32, 1#64) := by decide
/-- sign test. -/
theorem test_blez_least : after (start 0x19200004#32 [(9#5, 0x80000000#32)]) pcCount = some (0x00400014#32, 1#64) := by decide
/-- sign test. -/
theorem test_blez_one : after (start 0x19200004#32 [(9#5, 1#32)]) pcCount = some (0x00400004#32, 1#64) := by decide
/-- sign test. -/
theorem test_bgtz_greatest : after (start 0x1D200004#32 [(9#5, 0x7FFFFFFF#32)]) pcCount = some (0x00400014#32, 1#64) := by decide
/-- sign test. -/
theorem test_bgtz_zero : after (start 0x1D200004#32 [(9#5, 0#32)]) pcCount = some (0x00400004#32, 1#64) := by decide
/-- sign test. -/
theorem test_bltz_minus_one : after (start 0x05200004#32 [(9#5, 0xFFFFFFFF#32)]) pcCount = some (0x00400014#32, 1#64) := by decide
/-- sign test. -/
theorem test_bltz_zero : after (start 0x05200004#32 [(9#5, 0#32)]) pcCount = some (0x00400004#32, 1#64) := by decide
/-- sign test. -/
theorem test_bgez_zero : after (start 0x05210004#32 [(9#5, 0#32)]) pcCount = some (0x00400014#32, 1#64) := by decide
/-- sign test. -/
theorem test_bgez_least : after (start 0x05210004#32 [(9#5, 0x80000000#32)]) pcCount = some (0x00400004#32, 1#64) := by decide
/-- B12. -/
theorem test_j_keeps_the_top : after (startAt 0x10000008#32 0x0BFFFFFF#32 []) pcCount = some (0x1FFFFFFC#32, 1#64) := by decide
/-- B17. -/
theorem test_jr_unaligned : after (start 0x01200008#32 [(9#5, 0x00400102#32)]) pcCount = some (0x00400102#32, 1#64) := by decide
/-- S7.1, B15. -/
theorem test_jal : after (start 0x0C100008#32 [(31#5, 0x11111111#32)]) (fun t => (t.current.pc, t.x 31#5)) = some (0x00400020#32, 0x00400004#32) := by decide
/-- B22. -/
theorem test_jalr_same_register : after (start 0x01204809#32 [(9#5, 0x00400100#32)]) (fun t => (t.current.pc, t.x 9#5)) = some (0x00400100#32, 0x00400004#32) := by decide
/-- B23. -/
theorem test_jalr_to_register_zero : after (start 0x01200009#32 [(9#5, 0x00400100#32)]) (fun t => (t.current.pc, t.current.cell 0#5)) = some (0x00400100#32, 0#32) := by decide
/-- Y1. -/
theorem test_syscall_halts : after (start 0x0000000C#32 [(2#5, 10#32)]) (fun t => (t.status, pcCount t)) = some (.halted, 0x00400004#32, 1#64) := by decide
/-- Y3. -/
theorem test_syscall_compares_all_bits : after (start 0x0000000C#32 [(2#5, 0x0001000A#32)]) (fun t => (t.status, pcCount t)) = some (.running, 0x00400004#32, 1#64) := by decide
/-- Y6. -/
theorem test_unsupported_halts : after (start 0x012A402B#32 [(9#5, 1#32)]) (fun t => (t.status, pcCount t, t.faultLog)) = some (.halted, (0x00400000#32, 0#64), [.unimplementedInstruction 0x00400000#32 0x012A402B#32]) := by decide
/-- B, unmapped fetch. -/
theorem test_fetch_unmapped : after (startAt 0x00500000#32 0#32 []) pcCount = some (0x00500004#32, 1#64) := by decide
/-- B, wrap of the pc. -/
theorem test_pc_wraps : after (startAt 0xFFFFFFFC#32 0#32 []) pcCount = some (0#32, 1#64) := by decide

/-! ### The bus and the host (sections M and Z) -/

/-- The bus-level vectors of section M. -/
theorem test_mapped4_edges :
    mapped4 Config.default 0x100FFFFC#32 = true ∧ mapped4 Config.default 0x100FFFFD#32 = false ∧
    mapped4 Config.default 0x7FFFFFFC#32 = true ∧ mapped4 Config.default 0x7FFFFFFD#32 = false ∧
    mapped4 Config.default 0x00400000#32 = true ∧ mapped4 Config.default 0x003FFFFF#32 = false := by decide

/-- The write of section M at 0x10000002. -/
theorem test_bus_write :
    let s := startM 0#32 []
    words 0x10000000#32 (s.withMem (write32 s.config s.mem 0x10000002#32 0xA1B2C3D4#32)) =
      (0xC3D4AABB#32, 0x1122A1B2#32) := by decide

/-- Writing 0 leaves no entry, so that equal memories are equal lists. -/
theorem test_memory_canonical : Memory.setWord (Memory.setWord [] 0x10 0x01000200#32) 0x10 0#32 = [] := by decide

def image2 : Config := { Config.default with image := [0x24080005#32, 0x0000000C#32] }

/-- Z: the machine after reset with a program of two words. -/
theorem test_boot :
    let s := State.boot image2
    (s.getPc, s.getHi, s.getLo, s.getStatus, s.getCount, s.faults) = (0x00400000#32, 0#32, 0#32, .running, 0#64, []) ∧
    (s.hostRead32 0x00400000#32, s.hostRead32 0x00400004#32, s.hostRead32 0x00400008#32, s.hostRead32 0x00400001#32) =
      (0x24080005#32, 0x0000000C#32, 0#32, 0x0C240800#32) := by decide

theorem test_set_register :
    (State.reset.setRegister 0#5 0x12345678#32).getRegister 0#5 = 0#32 ∧
    (State.reset.setRegister 5#5 0x12345678#32).getRegister 5#5 = 0x12345678#32 := by decide

/-- Z: `run_for(3)` halts at the SYSCALL after two instructions. -/
theorem test_run_stops_early :
    (match runFor 3 ((State.boot image2).setRegister 2#5 10#32) with
     | .next t    => some (t.status, pcCount t, t.x 8#5)
     | .fault _   => none
     | .refused _ => none) = some (.halted, (0x00400008#32, 2#64), 5#32) := by decide

/-- The step after reset with nothing placed: the word 0 runs. -/
theorem test_step_from_reset : after State.reset pcCount = some (0x00400004#32, 1#64) := by decide

/-! ### Witnesses: for each obligation with hypotheses, a state and operands that meet them together -/

/-- The state with the given word at the pc and r9, r10. -/
def twoRegs (w a b : Word) : State := start w [(9#5, a), (10#5, b)]
/-- The state with the base register r16 at `a`. -/
def baseAt (a : Word) : State := startM 0#32 [(9#5, 0xCAFEF00D#32), (16#5, a)]
def fR : RType := ⟨9#5, 10#5, 8#5, 31#5⟩
def fI : IType := ⟨16#5, 9#5, 0#16⟩

theorem witness_DecodedWordEncodesToItself : decode 0x012A47E0#32 = .ok (.add fR) := by decide

theorem witness_SupportedWordsAreTheTableRows :
    ⟨"SLT", 0x0000002A#32, 0xFC00003F#32⟩ ∈ opcodeTable ∧ 0x012A402A#32 &&& 0xFC00003F#32 = 0x0000002A#32 := by decide

theorem witness_UnsupportedWordsExactly :
    decode 0x012A402B#32 = .error ⟨0x012A402B#32, 0#6, 0x2B#6⟩ ∧ decode 0x05220004#32 = .error ⟨0x05220004#32, 1#6, 4#6⟩ ∧
    decode 0xFFFFFFFF#32 = .error ⟨0xFFFFFFFF#32, 0x3F#6, 0x3F#6⟩ := by decide

theorem witness_DecodedFieldsAreSlices_r : (0x012A402A#32).toNat / 2 ^ 26 = 0 ∧ rTypeOf (functField 0x012A402A#32) = some .slt :=
  ⟨by decide, rfl⟩
theorem witness_DecodedFieldsAreSlices_regimm :
    (0x05210004#32).toNat / 2 ^ 26 = 1 ∧ regimmOf (branchCodeField 0x05210004#32) = some .bgez := ⟨by decide, rfl⟩
theorem witness_DecodedFieldsAreSlices_j : (0x0BFFFFFF#32).toNat / 2 ^ 26 = 2 ∧ (0x0C100008#32).toNat / 2 ^ 26 = 3 := by decide
theorem witness_DecodedFieldsAreSlices_i :
    4 ≤ (0xAE090001#32).toNat / 2 ^ 26 ∧ iTypeOf (opcodeField 0xAE090001#32) = some .sw := ⟨by decide, rfl⟩

/-- For the rules over every instruction (IgnoredFieldsHaveNoEffect, ExecuteLeavesCurrentUntouched,
OnlyTheDestinationRegisterIsWritten, RegisterZeroIsHardWired, HiLoWrittenOnlyByTheirInstructions, OnlyStoresWriteMemory,
DefaultPcRule): an instruction that answers, for each clause. -/
theorem witness_exec_answers :
    (∃ t, exec (.add fR) State.reset = .next t) ∧ (Instr.add fR).destination ≠ some 0#5 ∧
    (Instr.add fR).mayWriteHi = false ∧ (Instr.add fR).mayWriteLo = false ∧ (Instr.add fR).storeWidth = 0 ∧
    (Instr.add fR).isBranchOrJump = false := ⟨⟨_, rfl⟩, by decide⟩
theorem witness_OnlyStoresWriteMemory_store : (∃ t, exec (.sh fI) State.reset = .next t) ∧ (Instr.sh fI).storeWidth ≠ 0 :=
  ⟨⟨_, rfl⟩, by decide⟩

theorem witness_SignedDivideResult_zero : (twoRegs 0#32 5#32 0#32).x fR.rt = 0#32 := by decide
theorem witness_SignedDivideResult_exact :
    (twoRegs 0#32 0xFFFFFFF9#32 2#32).x fR.rt ≠ 0#32 ∧ (twoRegs 0#32 0xFFFFFFF9#32 2#32).x fR.rs ≠ 0x80000000#32 := by decide
theorem witness_SignedDivideResult_wraps :
    (twoRegs 0#32 0x80000000#32 0xFFFFFFFF#32).x fR.rs = 0x80000000#32 ∧
    (twoRegs 0#32 0x80000000#32 0xFFFFFFFF#32).x fR.rt = 0xFFFFFFFF#32 := by decide
theorem witness_UnsignedDivideResult :
    (twoRegs 0#32 5#32 0#32).x fR.rt = 0#32 ∧ (twoRegs 0#32 5#32 0xFFFFFFFF#32).x fR.rt ≠ 0#32 := by decide

/-- LoadResults and StoreResults: the last admitted address of the data region and the first that is not. -/
theorem witness_StoreResults :
    Memory.wf (baseAt 0x100FFFFC#32).mem ∧
    mapped4 (baseAt 0x100FFFFC#32).config (effectiveAddress (baseAt 0x100FFFFC#32) fI) = true ∧
    Memory.wf (baseAt 0x100FFFFD#32).mem ∧
    mapped4 (baseAt 0x100FFFFD#32).config (effectiveAddress (baseAt 0x100FFFFD#32) fI) = false := by decide

/-- MappedFourExactly: legal regions and an address above 0xFFFFFFFC; and both sides of its first clause. -/
theorem witness_MappedFourExactly :
    Config.default.wellFormed = true ∧ 0xFFFFFFFC < (0xFFFFFFFD#32).toNat ∧ mapped4 Config.default 0x004FFFFC#32 = true := by
  decide

/-- BusReadIsLittleEndian, BusWriteStoresFourBytes, BusReadAfterWrite, NarrowAccessesTouchTheirBytes: canonical memory, and
an address on each side of the edge. -/
theorem witness_bus :
    Memory.wf (startM 0#32 []).mem ∧ mapped4 Config.default 0x10000000#32 = true ∧
    mapped4 Config.default 0x0FFFFFFF#32 = false := by decide
/-- MixedWidthsSeeEachOther: all three addresses admitted. -/
theorem witness_MixedWidthsSeeEachOther :
    Config.default.wellFormed = true ∧ Memory.wf (startM 0#32 []).mem ∧ mapped4 Config.default 0x100FFFFA#32 = true ∧
    mapped4 Config.default (0x100FFFFA#32 + 1#32) = true ∧ mapped4 Config.default (0x100FFFFA#32 + 2#32) = true := by decide

theorem witness_StepRunsTheDecodedInstruction_mapped :
    let s := start 0x012A4020#32 []
    s.status = .running ∧ mapped4 s.config s.current.pc = true ∧
    decodeBytes (s.mem.byte s.current.pc.toNat) (s.mem.byte (s.current.pc.toNat + 1)) (s.mem.byte (s.current.pc.toNat + 2))
      (s.mem.byte (s.current.pc.toNat + 3)) = .ok (.add ⟨9#5, 10#5, 8#5, 0#5⟩) ∧
    ∃ t, exec (.add ⟨9#5, 10#5, 8#5, 0#5⟩) s = .next t := ⟨by decide, by decide, by decide, ⟨_, rfl⟩⟩
theorem witness_StepRunsTheDecodedInstruction_unmapped :
    let s := startAt 0x00500000#32 0#32 []
    s.status = .running ∧ mapped4 s.config s.current.pc = false ∧ ∃ t, exec (.sll ⟨0#5, 0#5, 0#5, 0#5⟩) s = .next t :=
  ⟨by decide, by decide, ⟨_, rfl⟩⟩

/-- UnsupportedWordHaltsWithoutCommit, and the Unsupported clauses of HaltedExactlyWhen, CounterCountsCommittedCycles,
FaultLogRecordsExactly, EndOfRunTellsItsCause (with its premise on the log). -/
theorem witness_unsupported_step :
    let s := start 0x012A402B#32 []
    s.status = .running ∧ decode (fetch s) = .error ⟨0x012A402B#32, 0#6, 0x2B#6⟩ ∧
    ∃ t, step s = .next t ∧ t.status = .halted := by
  refine ⟨by decide, by decide, ⟨raiseUnimplemented (start 0x012A402B#32 []) 0x012A402B#32, ?_, rfl⟩⟩
  rfl
theorem witness_EndOfRunTellsItsCause_log : LogLegal (start 0x012A402B#32 []) := ⟨[], by simp, .inl rfl⟩

/-- The SYSCALL clauses of HaltedExactlyWhen and EndOfRunTellsItsCause. -/
theorem witness_syscall_step :
    let s := start 0x0000000C#32 [(2#5, 10#32)]
    LogLegal s ∧ s.status = .running ∧ decode (fetch s) = .ok (.syscall ⟨0#5, 0#5, 0#5, 0#5⟩) ∧ s.x 2#5 = 10#32 ∧
    ∃ t, step s = .next t ∧ t.status = .halted := by
  refine ⟨⟨[], by simp, .inl rfl⟩, by decide, by decide, by decide, ⟨_, rfl, ?_⟩⟩
  decide

/-- The divide clauses of FaultLogRecordsExactly: a zero divisor, and one that is not. -/
theorem witness_divide_step :
    decode (fetch (twoRegs 0x012A001A#32 5#32 0#32)) = .ok (.div ⟨9#5, 10#5, 0#5, 0#5⟩) ∧
    (Instr.div ⟨9#5, 10#5, 0#5, 0#5⟩).divisor = some 10#5 ∧ (twoRegs 0x012A001A#32 5#32 0#32).x 10#5 = 0#32 ∧
    decode (fetch (twoRegs 0x012A001A#32 5#32 3#32)) = .ok (.div ⟨9#5, 10#5, 0#5, 0#5⟩) ∧
    (twoRegs 0x012A001A#32 5#32 3#32).x 10#5 ≠ 0#32 := by decide
/-- The second clause of UnsupportedWordHaltsWithoutCommit: a divide by zero appends to the log. -/
theorem witness_UnsupportedWordHaltsWithoutCommit_other :
    let s := twoRegs 0x012A001A#32 5#32 0#32
    s.status = .running ∧ ∃ t, step s = .next t ∧ t.faultLog ≠ s.faultLog := ⟨by decide, ⟨_, rfl, by decide⟩⟩

/-- HaltedIsTerminal, and the Halted clauses of the statements about one step. -/
theorem witness_HaltedIsTerminal : (State.reset.withStatus .halted).status = .halted := rfl
/-- The executed clause of CounterCountsCommittedCycles and of FaultLogRecordsExactly. -/
theorem witness_counted_step :
    State.reset.status = .running ∧ decode (fetch State.reset) = .ok (.sll ⟨0#5, 0#5, 0#5, 0#5⟩) ∧
    ∃ t, step State.reset = .next t := ⟨by decide, by decide, ⟨_, rfl⟩⟩

/-- A store to the word after the pc, through r16. -/
theorem witness_StoreIsSeenByTheNextFetch :
    let s := start 0xAE090004#32 [(9#5, 0x0000000C#32), (16#5, 0x00400000#32)]
    Memory.wf s.mem ∧ effectiveAddress s ⟨16#5, 9#5, 4#16⟩ = s.current.pc + 4#32 ∧
    mapped4 s.config (effectiveAddress s ⟨16#5, 9#5, 4#16⟩) = true := by decide
theorem witness_ProductIsReadByTheNextInstruction : fR.rd ≠ 0#5 := by decide

/-- BootMatchesTheResetTable: both words of the image are admitted, and a byte lies outside them. -/
theorem witness_BootMatchesTheResetTable :
    image2.image.length ≤ 2 ^ 30 ∧ 1 < image2.image.length ∧
    mapped4 image2 (image2.textBase + BitVec.ofNat 32 (4 * 1)) = true ∧
    ∀ i < image2.image.length, (image2.textBase + BitVec.ofNat 32 (4 * i)).toNat + 4 ≤ 0x00400008 := by decide

theorem witness_ResetForgetsEverything :
    ∃ t, runActions [.setRegister 5#5 7#32, .step, .setHi 1#32, .runFor 2] State.reset = .next t := ⟨_, rfl⟩

/-- BoundedRunSplits, BoundedRunCounts and ControlStateIsInvisibleToPrograms: a run that answers and is Running. -/
theorem witness_run : ∃ t, runFor 2 State.reset = .next t ∧ t.status = .running := ⟨_, rfl, rfl⟩
theorem witness_UnsupportedWordEndsTheRunUncounted :
    ∃ u, runFor 1 (State.boot { Config.default with image := [0x24080001#32, 0x0109502B#32] }) = .next u ∧
      u.status = .running ∧ ∃ e, decode (fetch u) = .error e := by
  refine ⟨_, rfl, by decide, ⟨⟨0x0109502B#32, 0#6, 0x2B#6⟩, by decide⟩⟩
theorem witness_RunToCompletionIsUnique :
    RunsToCompletion (State.reset.withStatus .halted) (State.reset.withStatus .halted) := ⟨rfl, 3, rfl⟩

/-- BootMeetsTheInvariant, EveryExecutionIsLegal, EveryHostActionKeepsTheInvariant, StepKeepsTheInvariant: legal parameters, and the reset state, from which
a step answers (witness_counted_step). -/
theorem witness_Inv : Config.default.wellFormed = true ∧ State.reset.Inv :=
  ⟨by decide, { configLegal := by decide, memCanonical := by decide, memMapped := by simp [MemoryMapped, State.reset, State.blank],
                zeroRegister := by decide, nextAgrees := rfl, logLegal := ⟨[], by simp, .inl rfl⟩ }⟩
/-- Two states that differ in the counter, the log and the hidden copy. -/
theorem witness_ControlStateIsInvisibleToPrograms :
    SameToPrograms State.reset { State.reset with instructionCount := 5#64, faultLog := [.arithmeticFault 0#32 0#32],
                                                  next := Arch.reset 8#32 } := ⟨rfl, rfl, rfl, rfl⟩
theorem witness_RegionOrderHasNoEffect :
    List.Perm [⟨0x10000000, 0x10100000⟩, ⟨0x00400000, 0x00500000⟩, ⟨0x7FF00000, 0x80000000⟩]
      State.reset.config.regions := by decide

end Sys2Proof.Tests
end

section
/-! No stuck state and no refusal (00_scope.md R13). -/

namespace Sys2Proof.Machine

/-- Execute is total: each shape of `exec_shapes` is an answer that carries a next state. -/
theorem exec_answers_next (i : Instr) (s : State) : ∃ t, exec i s = .next t := by
  rcases exec_shapes i s with ⟨d, v, -, -, -, h⟩ | ⟨hi, lo, -, -, -, -, h⟩ | ⟨taken, target, -, -, h⟩ |
    ⟨d, v, target, -, -, -, h⟩ | ⟨f, v, -, h⟩ | ⟨d, -, -, h⟩ | ⟨f, -, h⟩
  · obtain ⟨t, ht, -⟩ := answerReg_spec s d v
    exact ⟨t, h.trans ht⟩
  · obtain ⟨t, ht, -⟩ := answerHiLo_spec s hi lo
    exact ⟨t, h.trans ht⟩
  · obtain ⟨t, ht, -⟩ := answerBranch_spec s taken target
    exact ⟨t, h.trans ht⟩
  · obtain ⟨t, ht, -⟩ := answerLink_spec s d v target
    exact ⟨t, h.trans ht⟩
  · obtain ⟨t, ht, -⟩ := answerMem_spec s (write32 s.config s.mem (effectiveAddress s f) v)
    exact ⟨t, h.trans ht⟩
  · obtain ⟨t, ht, -⟩ := answerDivZero_spec s (encode i)
    exact ⟨t, h.trans ht⟩
  · exact ⟨_, h⟩

/-- The cycle is total: idle while Halted, the Unsupported outcome, or an execute, which always answers, and commit. -/
theorem step_answers_next (s : State) : ∃ t, step s = .next t := by
  cases hs : s.status with
  | halted => exact ⟨s, step_of_halted hs⟩
  | running =>
    cases hd : decode (fetch s) with
    | error u => exact ⟨_, step_of_error hs hd⟩
    | ok i =>
      obtain ⟨t, ht⟩ := exec_answers_next i s
      exact ⟨_, step_of_ok hs hd ht⟩

/-- Settles O33: step is total because each of its three outcomes is a next state, exec because each of its shapes is. -/
theorem everyStepAnswersANextState : Obligations.EveryStepAnswersANextState :=
  ⟨step_answers_next, exec_answers_next⟩

end Sys2Proof.Machine
end

section
/-! What executing an instruction leaves in each field of the state, derived once from the seven shapes of `exec_shapes`
(10_state.md R24, R26, R29, R34). -/

namespace Sys2Proof.Machine

/-- What executing `i` in `s` can leave behind: one constructor for each shape of `exec_shapes`. -/
inductive Executed (i : Instr) (s : State) : State → Prop
  | reg (d : RegNum) (v : Word) (hd : i.destination = some d) (hb : i.isBranchOrJump = false) :
      Executed i s (s.withNext (s.begin.setReg d v))
  | hiLo (h l : Word) (hh : i.mayWriteHi = false → h = s.current.hi) (hl : i.mayWriteLo = false → l = s.current.lo) :
      Executed i s (s.withNext ((s.begin.setHi h).setLo l))
  | branch (taken : Bool) (target : Word) (hb : i.isBranchOrJump = true) :
      Executed i s (s.withNext (if taken then s.begin.setPc target else s.begin))
  | link (d : RegNum) (v target : Word) (hd : i.destination = some d) (hb : i.isBranchOrJump = true) :
      Executed i s (s.withNext ((s.begin.setReg d v).setPc target))
  | store (a v : Word) : Executed i s ((s.withMem (write32 s.config s.mem a v)).withNext s.begin)
  | divZero (d : RegNum) (hd : i.divisor = some d) (hz : s.x d = 0#32) :
      Executed i s ((recordArithmetic s (encode i)).withNext s.begin)
  | syscall (f : RType) (hi : i = .syscall f) :
      Executed i s
        ((s.withStatus (if condHaltService (s.x serviceReg) then .halted else s.status)).withNext s.begin)

/-- Every answer of `exec` has one of these shapes. -/
theorem executed_of_exec {i : Instr} {s t : State} (h : exec i s = .next t) : Executed i s t := by
  rcases exec_shapes i s with ⟨d, v, hd, -, hb, e⟩ | ⟨hi, lo, -, -, hh, hl, e⟩ | ⟨taken, target, hb, -, e⟩ |
    ⟨d, v, target, hd, hb, -, e⟩ | ⟨f, v, -, e⟩ | ⟨d, hd, hz, e⟩ | ⟨f, hi, e⟩ <;>
  obtain rfl := Host.Outcome.next.inj (e.symm.trans h)
  · exact .reg d v hd hb
  · exact .hiLo hi lo hh hl
  · exact .branch taken target hb
  · exact .link d v target hd hb
  · exact .store (effectiveAddress s f) v
  · exact .divZero d hd hz
  · exact .syscall f hi

/-- `current`, the counter and the parameters wait for commit in every shape. -/
theorem exec_cycleKept {i : Instr} {s t : State} (h : exec i s = .next t) : CycleKept s t := by
  cases executed_of_exec h <;> exact ⟨rfl, rfl, rfl⟩

/-- A register that is not the destination keeps its value, and so does register 0, whose writes are discarded. -/
theorem exec_next_cell {i : Instr} {s t : State} (h : exec i s = .next t) {r : RegNum}
    (hr : i.destination ≠ some r ∨ r = 0#5) : t.next.cell r = s.current.cell r := by
  have discarded (d : RegNum) (v : Word) (hd : i.destination = some d) :
      (s.current.advance.setReg d v).cell r = s.current.cell r := by
    rw [Arch.setReg_cell, if_neg, Arch.advance_cell]
    rintro ⟨rfl, h0⟩
    exact hr.elim (· hd) h0
  cases executed_of_exec h with
  | reg d v hd => exact discarded d v hd
  | link d v target hd => exact discarded d v hd
  | branch taken target => cases taken <;> rfl
  | hiLo | store | divZero | syscall => rfl

/-- HI and LO change only in an instruction of 10_state.md R29. -/
theorem exec_next_hiLo {i : Instr} {s t : State} (h : exec i s = .next t) :
    (i.mayWriteHi = false → t.next.hi = s.current.hi) ∧ (i.mayWriteLo = false → t.next.lo = s.current.lo) := by
  cases executed_of_exec h with
  | hiLo hi lo hh hl => exact ⟨hh, hl⟩
  | branch taken target => cases taken <;> exact ⟨fun _ => rfl, fun _ => rfl⟩
  | reg | link => simp
  | store | divZero | syscall => exact ⟨fun _ => rfl, fun _ => rfl⟩

/-- The default pc rule (10_state.md R26): only the two shapes of branches and jumps leave another pc. -/
theorem exec_next_pc {i : Instr} {s t : State} (h : exec i s = .next t) (hi : i.isBranchOrJump = false) :
    t.next.pc = s.current.pc + 4#32 := by
  cases executed_of_exec h with
  | branch taken target hb => simp [hi] at hb
  | link d v target hd hb => simp [hi] at hb
  | reg d v => exact Arch.setReg_pc ..
  | hiLo | store | divZero | syscall => rfl

/-- Memory is as before, or one bus write away from it. -/
theorem exec_mem {i : Instr} {s t : State} (h : exec i s = .next t) :
    t.mem = s.mem ∨ ∃ a v, t.mem = write32 s.config s.mem a v := by
  cases executed_of_exec h with
  | store a v => exact .inr ⟨a, v, rfl⟩
  | reg | hiLo | branch | link | divZero | syscall => exact .inl rfl

/-- Only SYSCALL can change Status. -/
theorem exec_status_of_ne_syscall {i : Instr} {s t : State} (h : exec i s = .next t) (hi : ∀ f, i ≠ .syscall f) :
    t.status = s.status := by
  cases executed_of_exec h with
  | syscall f hf => exact absurd hf (hi f)
  | reg | hiLo | branch | link | store | divZero => rfl

@[simp] theorem condHaltService_iff (v : Word) : condHaltService v = true ↔ v = 10#32 := decide_eq_true_iff

/-- An instruction halts a running machine exactly when it is SYSCALL with service code 10 (46_system.md R190). -/
theorem exec_halted_iff {i : Instr} {s t : State} (h : exec i s = .next t) (hs : s.status = .running) :
    t.status = .halted ↔ ∃ f, i = .syscall f ∧ s.x 2#5 = 10#32 := by
  by_cases hi : ∃ f, i = .syscall f
  · obtain ⟨f, rfl⟩ := hi
    obtain rfl := Host.Outcome.next.inj h
    simp [serviceReg, hs]
  · have kept := exec_status_of_ne_syscall h (not_exists.1 hi)
    simp only [kept, hs, reduceCtorEq, false_iff]
    exact fun ⟨f, hf, _⟩ => hi ⟨f, hf⟩

/-- A divide by zero appends its record (43_muldiv_hilo.md R143). -/
theorem exec_faultLog_of_divZero {i : Instr} {s t : State} {d : RegNum} (h : exec i s = .next t)
    (hd : i.divisor = some d) (hz : s.x d = 0#32) :
    t.faultLog = s.faultLog ++ [.arithmeticFault s.current.pc (encode i)] := by
  obtain rfl := Host.Outcome.next.inj ((exec_divZero hd hz).symm.trans h)
  rfl

/-- Any other instruction appends nothing (60_exceptions.md R206). -/
theorem exec_faultLog_of_no_divZero {i : Instr} {s t : State} (h : exec i s = .next t)
    (hi : ∀ d, i.divisor = some d → s.x d ≠ 0#32) : t.faultLog = s.faultLog := by
  cases executed_of_exec h with
  | divZero d hd hz => exact absurd hz (hi d hd)
  | reg | hiLo | branch | link | store | syscall => rfl

/-- Settles O27: in every shape the answer differs from `s` in `next`, memory, Status and log only. -/
theorem executeLeavesCurrentUntouched : Obligations.ExecuteLeavesCurrentUntouched :=
  fun _ _ _ h => exec_cycleKept h

/-- Settles O28: of the seven shapes only two write a register, the destination. -/
theorem onlyTheDestinationRegisterIsWritten : Obligations.OnlyTheDestinationRegisterIsWritten :=
  fun _ _ _ h _ hr => exec_next_cell h (.inl hr)

/-- Settles O29: the snapshot at reset holds 0 in every register, and a write to register 0 is discarded. -/
theorem registerZeroIsHardWired : Obligations.RegisterZeroIsHardWired :=
  ⟨fun c => Arch.reset_cell c.textBase 0#5, fun s => Arch.reg_zero s.current, fun _ _ _ h => exec_next_cell h (.inr rfl),
    fun s v => Arch.setReg_zero s.current v⟩

/-- Settles O30: of the seven shapes only one writes HI and LO, and MTHI and MTLO write the other one back. -/
theorem hiLoWrittenOnlyByTheirInstructions : Obligations.HiLoWrittenOnlyByTheirInstructions :=
  fun _ _ _ h => exec_next_hiLo h

/-- Settles O32: each shape starts from the advanced pc, and only branches and jumps write another. -/
theorem defaultPcRule : Obligations.DefaultPcRule :=
  fun _ _ _ h hi => exec_next_pc h hi

end Sys2Proof.Machine
end

section
/-! The word an instruction was decoded from is the word it encodes to (30_encoding.md R87 to R92): no bit is lost, so the
record of a divide by zero holds the fetched word (log entry 4). -/

namespace Sys2Proof

/-- The encoder and the R-type table agree on every entry. -/
theorem encode_of_rTypeOf {fn : BitVec 6} {c : RType → Instr} (h : rTypeOf fn = some c) (f : RType) :
    encode (c f) = encodeR fn f := by
  have entry : ∀ e ∈ rTypeTable, encode (e.2 f) = encodeR e.1 f := by simp [rTypeTable, encode]
  exact entry _ (mem_of_lookup h)

/-- The encoder and the REGIMM table agree on every entry. -/
theorem encode_of_regimmOf {code : BitVec 5} {c : RegimmType → Instr} (h : regimmOf code = some c) (f : RegimmType) :
    encode (c f) = encodeRegimm code f := by
  have entry : ∀ e ∈ regimmTable, encode (e.2 f) = encodeRegimm e.1 f := by simp [regimmTable, encode]
  exact entry _ (mem_of_lookup h)

/-- The encoder and the I-type table agree on every entry. -/
theorem encode_of_iTypeOf {op : BitVec 6} {c : IType → Instr} (h : iTypeOf op = some c) (f : IType) :
    encode (c f) = encodeI op f := by
  have entry : ∀ e ∈ iTypeTable, encode (e.2 f) = encodeI e.1 f := by simp [iTypeTable, encode]
  exact entry _ (mem_of_lookup h)

/-- Encoding a decoded instruction gives the word back, format by format. -/
theorem encode_of_decode {raw : Word} {i : Instr} (h : decode raw = .ok i) : encode i = raw := by
  unfold decode at h
  split at h
  · next h0 =>
    split at h
    · next c hc =>
      obtain rfl := Except.ok.inj h
      rw [encode_of_rTypeOf hc, encodeR_fields h0]
    · cases h
  split at h
  · next h1 =>
    split at h
    · next c hc =>
      obtain rfl := Except.ok.inj h
      rw [encode_of_regimmOf hc, encodeRegimm_fields h1]
    · cases h
  split at h
  · next h2 =>
    obtain rfl := Except.ok.inj h
    rw [encode, ← h2, encodeJ_fields]
  split at h
  · next h3 =>
    obtain rfl := Except.ok.inj h
    rw [encode, ← h3, encodeJ_fields]
  split at h
  · next c hc =>
    obtain rfl := Except.ok.inj h
    rw [encode_of_iTypeOf hc, encodeI_fields]
  · cases h

end Sys2Proof
end

section
/-! The cycle: what a step answers in each of its three cases, and what that means for Status, counter and fault log
(10_state.md R31 to R33, R43, R47). -/

namespace Sys2Proof.Machine

/-! ### The three cases of a step -/

theorem step_eq_self {s t : State} (hs : s.status = .halted) (h : step s = .next t) : t = s :=
  (Host.Outcome.next.inj ((step_of_halted hs).symm.trans h)).symm

/-- The record of an Unsupported word names the fetched word. -/
theorem step_eq_raise {s t : State} {u : Unsupported} (hs : s.status = .running) (hu : decode (fetch s) = .error u)
    (h : step s = .next t) : t = raiseUnimplemented s (fetch s) := by
  obtain rfl := Host.Outcome.next.inj ((step_of_error hs hu).symm.trans h)
  obtain rfl := decode_error_eq hu
  rfl

theorem step_eq_commit {s t : State} {i : Instr} (hs : s.status = .running) (hi : decode (fetch s) = .ok i)
    (h : step s = .next t) : ∃ u, exec i s = .next u ∧ t = commit u := by
  obtain ⟨u, hu⟩ := exec_answers_next i s
  exact ⟨u, hu, (Host.Outcome.next.inj ((step_of_ok hs hi hu).symm.trans h)).symm⟩

/-! ### Boot, field by field: the blank state with the image in memory (70_reset_and_hazards.md R230) -/

@[simp] theorem State.boot_current (c : Config) : (State.boot c).current = Arch.reset c.textBase := rfl
@[simp] theorem State.boot_next (c : Config) : (State.boot c).next = Arch.reset c.textBase := rfl
@[simp] theorem State.boot_mem (c : Config) : (State.boot c).mem = loadWords c c.textBase c.image [] := rfl
@[simp] theorem State.boot_status (c : Config) : (State.boot c).status = .running := rfl
@[simp] theorem State.boot_instructionCount (c : Config) : (State.boot c).instructionCount = 0#64 := rfl
@[simp] theorem State.boot_faultLog (c : Config) : (State.boot c).faultLog = [] := rfl
@[simp] theorem State.boot_config (c : Config) : (State.boot c).config = c := rfl

/-! ### Fetch -/

/-- At an admitted pc the Decoder sees the four bytes there (30_encoding.md R80). -/
theorem decode_fetch_of_mapped {s : State} (h : mapped4 s.config s.current.pc = true) :
    decode (fetch s) = decodeBytes (s.mem.byte s.current.pc.toNat) (s.mem.byte (s.current.pc.toNat + 1))
      (s.mem.byte (s.current.pc.toNat + 2)) (s.mem.byte (s.current.pc.toNat + 3)) :=
  congrArg decode (read32_mapped s.mem h)

/-- At any other pc it sees the word 0, which is SLL r0, r0, 0 (30_encoding.md R95). -/
theorem decode_fetch_of_unmapped {s : State} (h : mapped4 s.config s.current.pc = false) :
    decode (fetch s) = .ok (.sll ⟨0#5, 0#5, 0#5, 0#5⟩) :=
  (congrArg decode (read32_unmapped s.mem h)).trans rfl

/-- Settles O34: the fetched word decodes to the instruction, and a step is then exec and commit. -/
theorem stepRunsTheDecodedInstruction : Obligations.StepRunsTheDecodedInstruction :=
  ⟨fun _ _ _ hs hm hi ht => step_of_ok hs ((decode_fetch_of_mapped hm).trans hi) ht,
    fun _ _ hs hm ht => step_of_ok hs (decode_fetch_of_unmapped hm) ht⟩

/-! ### Status, counter, log -/

/-- Settles O36: a step that executes halts only by SYSCALL; the two other cases are Halted afterwards. -/
theorem haltedExactlyWhen : Obligations.HaltedExactlyWhen := by
  refine ⟨State.boot_status, fun s t h => ?_⟩
  cases hs : s.status with
  | halted =>
    obtain rfl := step_eq_self hs h
    simp [hs]
  | running =>
    cases hd : decode (fetch s) with
    | error u =>
      obtain rfl := step_eq_raise hs hd h
      simp
    | ok i =>
      obtain ⟨u, hu, rfl⟩ := step_eq_commit hs hd h
      rw [commit_status, exec_halted_iff hu hs]
      simp

/-- Settles O38: only commit touches the counter, and only an executed instruction is committed. -/
theorem counterCountsCommittedCycles : Obligations.CounterCountsCommittedCycles := by
  refine ⟨State.boot_instructionCount, fun s t h => ⟨?_, ?_⟩⟩
  · rintro hs ⟨i, hi⟩
    obtain ⟨u, hu, rfl⟩ := step_eq_commit hs hi h
    obtain ⟨-, hcount, -⟩ := exec_cycleKept hu
    rw [commit_instructionCount, hcount]
  · intro hd
    cases hs : s.status with
    | halted => rw [step_eq_self hs h]
    | running =>
      obtain ⟨u, hu⟩ := hd.resolve_left (by simp [hs])
      rw [step_eq_raise hs hu h, raiseUnimplemented_instructionCount]

/-- Settles O39: by the three cases of a step; the word recorded by a divide is the fetched one, `encode_of_decode`. -/
theorem faultLogRecordsExactly : Obligations.FaultLogRecordsExactly := by
  refine fun s t h => ⟨?_, ?_, ?_⟩
  · rintro hs ⟨u, hu⟩
    rw [step_eq_raise hs hu h, raiseUnimplemented_faultLog]
  · rintro hs ⟨i, d, hi, hd, hz⟩
    obtain ⟨u, hu, rfl⟩ := step_eq_commit hs hi h
    rw [commit_faultLog, exec_faultLog_of_divZero hu hd hz, encode_of_decode hi]
  · intro hd
    cases hs : s.status with
    | halted => rw [step_eq_self hs h]
    | running =>
      obtain ⟨i, hi, hnz⟩ := hd.resolve_left (by simp [hs])
      obtain ⟨u, hu, rfl⟩ := step_eq_commit hs hi h
      rw [commit_faultLog, exec_faultLog_of_no_divZero hu hnz]

/-! ### The fault log of a run (10_state.md R47) -/

theorem logLegal_of_no_fatal {s : State} (h : ∀ r ∈ s.faultLog, r.fatal = false) : LogLegal s :=
  ⟨s.faultLog, h, .inl rfl⟩

/-- A legal log of a running machine holds no fatal record. -/
theorem no_fatal_of_running {s : State} (h : LogLegal s) (hs : s.status = .running) :
    ∀ r ∈ s.faultLog, r.fatal = false := by
  obtain ⟨l, hl, e | ⟨hh, -⟩⟩ := h
  · rwa [e]
  · simp [hs] at hh

/-- A fatal record in the log belies a clean exit. -/
theorem not_cleanExit_raise (s : State) (raw : Word) : ¬ CleanExit (raiseUnimplemented s raw) := by
  rintro ⟨-, hl⟩
  have := hl (.unimplementedInstruction s.current.pc raw) (by simp)
  simp [FaultRecord.fatal] at this

/-- Settles O40: a step that halts a running machine is a committed SYSCALL, or the Unsupported outcome. -/
theorem endOfRunTellsItsCause : Obligations.EndOfRunTellsItsCause := by
  intro s t hl hs h ht
  cases hd : decode (fetch s) with
  | error u =>
    obtain rfl := step_eq_raise hs hd h
    exact .inr ⟨not_cleanExit_raise s _, rfl, rfl, rfl, by simp⟩
  | ok i =>
    obtain ⟨u, hu, rfl⟩ := step_eq_commit hs hd h
    obtain ⟨f, rfl, -⟩ := (exec_halted_iff hu hs).1 ht
    have hlog : u.faultLog = s.faultLog := exec_faultLog_of_no_divZero hu nofun
    obtain ⟨-, hcount, -⟩ := exec_cycleKept hu
    refine .inl ⟨⟨ht, ?_⟩, ⟨f, rfl⟩, ?_, ?_⟩
    · rw [commit_faultLog, hlog]
      exact no_fatal_of_running hl hs
    · rw [commit_current, exec_next_pc hu rfl]
    · rw [commit_instructionCount, hcount]

end Sys2Proof.Machine
end

section
/-! The loader and the reset table (70_reset_and_hazards.md R230, R233), and the register mutators of the host
(10_state.md R40). -/

namespace Sys2Proof.Machine

/-! ### The loader -/

/-- The address of the word `i + 1` of an image at `a` is that of the word `i` of the rest, which starts at `a + 4`. -/
theorem wordAddress_succ (a : Word) (i : Nat) :
    a + BitVec.ofNat 32 (4 * (i + 1)) = a + 4#32 + BitVec.ofNat 32 (4 * i) := by
  apply BitVec.eq_of_toNat_eq
  simp only [BitVec.toNat_add, BitVec.toNat_ofNat]
  omega

/-- In an image of at most 2^30 words no two words share a byte: the later one is 4 bytes or more away from the first. -/
theorem wordAddress_apart (a : Word) {i : Nat} (h : i + 1 < 2 ^ 30) {b : Nat} (hb : a.toNat ≤ b ∧ b < a.toNat + 4) :
    b < (a + 4#32 + BitVec.ofNat 32 (4 * i)).toNat ∨ (a + 4#32 + BitVec.ofNat 32 (4 * i)).toNat + 4 ≤ b := by
  simp only [BitVec.toNat_add, BitVec.toNat_ofNat]
  have := a.isLt
  omega

/-- A byte in no admitted word of the image is as before the load. -/
theorem byte_loadWords_outside {c : Config} (ws : List Word) (a : Word) {m : Memory} (hm : Memory.wf m) {b : Nat}
    (hb : ∀ i < ws.length, mapped4 c (a + BitVec.ofNat 32 (4 * i)) = true →
      b < (a + BitVec.ofNat 32 (4 * i)).toNat ∨ (a + BitVec.ofNat 32 (4 * i)).toNat + 4 ≤ b) :
    (loadWords c a ws m).byte b = m.byte b := by
  induction ws generalizing a m with
  | nil => rfl
  | cons w ws ih =>
    have rest : (loadWords c a (w :: ws) m).byte b = (write32 c m a w).byte b :=
      ih (a + 4#32) (wf_write32 hm c a w) fun i hi => by
        simpa only [wordAddress_succ] using hb (i + 1) (by simpa using hi)
    rw [rest]
    cases ha : mapped4 c a with
    | false => rw [write32_unmapped m w ha]
    | true =>
      have first := hb 0 (by simp)
      simp only [Nat.mul_zero, BitVec.add_zero, ha, true_implies] at first
      rw [write32_mapped m w ha, Memory.byte_setWord hm, if_neg (by omega)]

/-- The bytes of an admitted word of the image are those of the word: no later word overwrites them. -/
theorem byte_loadWords {c : Config} (ws : List Word) (a : Word) {m : Memory} (hm : Memory.wf m)
    (hlen : ws.length ≤ 2 ^ 30) {i : Nat} (hi : i < ws.length)
    (ha : mapped4 c (a + BitVec.ofNat 32 (4 * i)) = true) {k : Nat} (hk : k < 4) :
    (loadWords c a ws m).byte ((a + BitVec.ofNat 32 (4 * i)).toNat + k) = byteOfWord ws[i] k := by
  induction ws generalizing a m i with
  | nil => simp at hi
  | cons w ws ih =>
    rw [List.length_cons] at hlen hi
    have hw := wf_write32 hm c a w
    cases i with
    | zero =>
      simp only [Nat.mul_zero, BitVec.add_zero] at ha ⊢
      rw [loadWords, byte_loadWords_outside ws (a + 4#32) hw fun j hj _ => wordAddress_apart a (by omega) (by omega),
        write32_mapped m w ha, Memory.byte_setWord hm, if_pos (by omega), Nat.add_sub_cancel_left]
      rfl
    | succ i =>
      rw [wordAddress_succ] at ha ⊢
      exact ih (a + 4#32) hw (by omega) (by omega) ha

/-- A byte of a word as a number (20_memory.md R54). -/
theorem byteOfWord_toNat (v : Word) (k : Nat) : (byteOfWord v k).toNat = v.toNat / 2 ^ (8 * k) % 2 ^ 8 := by
  rw [byteOfWord, BitVec.extractLsb'_toNat, Nat.shiftRight_eq_div_pow]

/-- Settles O43: the register rows are those of the blank state, and the memory rows are those of the loader on it. -/
theorem bootMatchesTheResetTable : Obligations.BootMatchesTheResetTable := by
  refine fun c hlen => ⟨rfl, Arch.reset_cell c.textBase, rfl, rfl, rfl, rfl, rfl, rfl, rfl, fun i hi ha k hk => ?_,
    fun a ha => ?_⟩
  · rw [State.boot_mem, byte_loadWords c.image c.textBase Memory.wf_nil hlen hi ha hk, byteOfWord_toNat]
  · exact byte_loadWords_outside c.image c.textBase Memory.wf_nil ha

/-! ### The register mutators -/

/-- Settles O45: a mutator patches the snapshot, and every other field is as before. -/
theorem hostMutatorsChangeOneRegister : Obligations.HostMutatorsChangeOneRegister :=
  ⟨fun s i r v => ⟨Arch.setReg_cell s.current i r v, Arch.setReg_pc .., Arch.setReg_hi .., Arch.setReg_lo ..,
      rfl, rfl, rfl, rfl⟩,
    fun _ _ => ⟨rfl, rfl, rfl, rfl, rfl⟩, fun _ _ => ⟨rfl, rfl, rfl, rfl, rfl⟩⟩

end Sys2Proof.Machine
end

section
/-! Bounded runs (10_state.md R44, R45): they always answer, can be cut anywhere, and count their steps. -/

namespace Sys2Proof.Machine

/-- The first step of a run can be taken by itself, also when it does nothing. -/
theorem runFor_succ_of_step {s t : State} (h : step s = .next t) (n : Nat) : runFor (n + 1) s = runFor n t := by
  cases hs : s.status with
  | running => exact runFor_succ hs h n
  | halted => rw [step_eq_self hs h, runFor_of_halted hs, runFor_of_halted hs]

theorem runFor_answers_next (n : Nat) (s : State) : ∃ t, runFor n s = .next t := by
  induction n generalizing s with
  | zero => exact ⟨s, rfl⟩
  | succ n ih =>
    obtain ⟨u, hu⟩ := step_answers_next s
    rw [runFor_succ_of_step hu]
    exact ih u

theorem runFor_add {m : Nat} {s t : State} (h : runFor m s = .next t) (n : Nat) : runFor (m + n) s = runFor n t := by
  induction m generalizing s with
  | zero =>
    obtain rfl := Host.Outcome.next.inj h
    rw [Nat.zero_add]
  | succ m ih =>
    obtain ⟨u, hu⟩ := step_answers_next s
    rw [runFor_succ_of_step hu] at h
    rw [Nat.add_right_comm, runFor_succ_of_step hu, ih h]

/-- Settles O46: by induction on the length of the first part; idle steps of a Halted machine included. -/
theorem boundedRunSplits : Obligations.BoundedRunSplits :=
  ⟨fun _ => rfl, fun n _ hs => runFor_of_halted hs n, fun n _ _ h => runFor_succ_of_step h n,
    fun _ n _ _ h => runFor_add h n⟩

/-- A run that ends Running began Running. -/
theorem running_of_runFor {n : Nat} {s t : State} (h : runFor n s = .next t) (ht : t.status = .running) :
    s.status = .running := by
  cases hs : s.status with
  | running => rfl
  | halted =>
    obtain rfl := Host.Outcome.next.inj ((runFor_of_halted hs n).symm.trans h)
    rw [← hs, ht]

/-- A step that starts and ends Running has executed and counted an instruction. -/
theorem step_counts {s t : State} (h : step s = .next t) (hs : s.status = .running) (ht : t.status = .running) :
    t.instructionCount = s.instructionCount + 1#64 := by
  cases hd : decode (fetch s) with
  | error u => simp [step_eq_raise hs hd h] at ht
  | ok i => exact (counterCountsCommittedCycles.2 s t h).1 hs ⟨i, hd⟩

/-- Settles O47: by induction on the length; a run that ends Running was Running after each of its steps. -/
theorem boundedRunCounts : Obligations.BoundedRunCounts := by
  intro n
  induction n with
  | zero =>
    intro s t h _
    obtain rfl := Host.Outcome.next.inj h
    exact (BitVec.add_zero _).symm
  | succ n ih =>
    intro s t h ht
    obtain ⟨u, hu⟩ := step_answers_next s
    have hs := running_of_runFor h ht
    rw [runFor_succ_of_step hu] at h
    rw [ih u t h ht, step_counts hu hs (running_of_runFor h ht), BitVec.add_assoc, ← BitVec.ofNat_add, Nat.add_comm]

/-- Settles O48: the run is cut at the word, whose step neither commits nor counts, and the rest is idle. -/
theorem unsupportedWordEndsTheRunUncounted : Obligations.UnsupportedWordEndsTheRunUncounted := by
  rintro n k s u h hu ⟨e, he⟩
  refine ⟨raiseUnimplemented u e.raw, ?_, rfl, rfl, boundedRunCounts n s u h hu⟩
  calc runFor (n + 1 + k) s
    _ = runFor (k + 1) u := by rw [Nat.add_assoc, runFor_add h, Nat.add_comm 1 k]
    _ = runFor k (raiseUnimplemented u e.raw) := runFor_succ_of_step (step_of_error hu he) k
    _ = .next (raiseUnimplemented u e.raw) := runFor_of_halted rfl k

/-- A run that has Halted answers the same state however much longer it may go on. -/
theorem runFor_of_le {m n : Nat} {s t : State} (h : runFor m s = .next t) (ht : t.status = .halted) (hmn : m ≤ n) :
    runFor n s = .next t := by
  obtain ⟨k, rfl⟩ := Nat.exists_eq_add_of_le hmn
  rw [runFor_add h, runFor_of_halted ht]

/-- Settles O49: of two runs that Halted both answer what the longer one does. -/
theorem runToCompletionIsUnique : Obligations.RunToCompletionIsUnique := by
  rintro s t t' ⟨ht, m, hm⟩ ⟨ht', n, hn⟩
  have long := runFor_of_le hm ht (le_max_left m n)
  have long' := runFor_of_le hn ht' (le_max_right m n)
  exact Host.Outcome.next.inj (long.symm.trans long')

end Sys2Proof.Machine
end

section
/-! The invariant of the machine: boot establishes it, every step and every host action keeps it (10_state.md R20, R22, R40,
R44, R46, R47). -/

namespace Sys2Proof.Machine

/-! ### Boot -/

theorem boot_inv {c : Config} (hc : c.wellFormed = true) : (State.boot c).Inv := by
  obtain ⟨canonical, mapped⟩ := loadWords_legal (c := c) c.image c.textBase Memory.wf_nil nofun
  exact { configLegal := hc, memCanonical := canonical, memMapped := mapped, zeroRegister := Arch.reset_cell ..,
          nextAgrees := rfl, logLegal := logLegal_of_no_fatal nofun }

/-- Settles O50: the blank state meets the invariant and the loader keeps memory legal; the reset state is a boot. -/
theorem bootMeetsTheInvariant : Obligations.BootMeetsTheInvariant :=
  ⟨fun _ hc => boot_inv hc, boot_default ▸ boot_inv (by decide)⟩

/-! ### Steps and runs -/

/-- An instruction appends no fatal record (60_exceptions.md R200 to R202). -/
theorem exec_no_fatal {i : Instr} {s t : State} (h : exec i s = .next t) (hs : ∀ r ∈ s.faultLog, r.fatal = false) :
    ∀ r ∈ t.faultLog, r.fatal = false := by
  by_cases hz : ∃ d, i.divisor = some d ∧ s.x d = 0#32
  · obtain ⟨d, hd, hz⟩ := hz
    rw [exec_faultLog_of_divZero h hd hz]
    exact List.forall_mem_append.2 ⟨hs, List.forall_mem_singleton.2 rfl⟩
  · rw [exec_faultLog_of_no_divZero h fun d hd h0 => hz ⟨d, hd, h0⟩]
    exact hs

theorem exec_memLegal {i : Instr} {s t : State} (h : exec i s = .next t) (hw : Memory.wf s.mem)
    (hm : MemoryMapped s.config s.mem) : Memory.wf t.mem ∧ MemoryMapped s.config t.mem := by
  rcases exec_mem h with e | ⟨a, v, e⟩ <;> rw [e]
  · exact ⟨hw, hm⟩
  · exact ⟨wf_write32 hw s.config a v, mapped_write32 hm a v⟩

/-- An executed and committed instruction keeps the invariant. -/
theorem inv_commit {i : Instr} {s t : State} (hs : s.Inv) (hrun : s.status = .running) (h : exec i s = .next t) :
    (commit t).Inv := by
  obtain ⟨-, -, hconfig⟩ := exec_cycleKept h
  have benign := exec_no_fatal h (no_fatal_of_running hs.logLegal hrun)
  obtain ⟨canonical, mapped⟩ := exec_memLegal h hs.memCanonical hs.memMapped
  exact {
    configLegal  := by rw [commit_config, hconfig]; exact hs.configLegal
    memCanonical := canonical
    memMapped    := by rw [commit_config, hconfig]; exact mapped
    zeroRegister := (exec_next_cell h (.inr rfl)).trans hs.zeroRegister
    nextAgrees   := rfl
    logLegal     := logLegal_of_no_fatal benign }

/-- The Unsupported outcome keeps the invariant: its record is the one fatal record, and names the pc. -/
theorem inv_raise {s : State} (hs : s.Inv) (hrun : s.status = .running) (raw : Word) :
    (raiseUnimplemented s raw).Inv :=
  { hs with logLegal := ⟨s.faultLog, no_fatal_of_running hs.logLegal hrun, .inr ⟨rfl, raw, rfl⟩⟩ }

/-- Settles O51: by the three cases of a step, idle, Unsupported or committed. -/
theorem stepKeepsTheInvariant : Obligations.StepKeepsTheInvariant := by
  intro s t hs h
  rcases step_cases h with ⟨-, rfl⟩ | ⟨hrun, u, -, rfl⟩ | ⟨hrun, i, u, -, hu, rfl⟩
  · exact hs
  · exact inv_raise hs hrun u.raw
  · exact inv_commit hs hrun hu

theorem step_config {s t : State} (h : step s = .next t) : t.config = s.config := by
  rcases step_cases h with ⟨-, rfl⟩ | ⟨-, u, -, rfl⟩ | ⟨-, i, u, -, hu, rfl⟩
  · rfl
  · rfl
  · obtain ⟨-, -, hconfig⟩ := exec_cycleKept hu
    exact hconfig

/-- The invariant, with the parameters fixed: what every host action keeps. -/
def State.InvFor (c : Config) (s : State) : Prop := s.Inv ∧ s.config = c

theorem step_invFor (c : Config) (s t : State) (hs : s.InvFor c) (h : step s = .next t) : t.InvFor c :=
  ⟨stepKeepsTheInvariant s t hs.1 h, (step_config h).trans hs.2⟩

/-! ### The host -/

/-- A snapshot patched from outside keeps the invariant if register 0 stays 0 and the pc, which a fatal record names, stays
where it was. -/
theorem inv_patch {s : State} {a : Arch} (hs : s.Inv) (h0 : a.cell 0#5 = 0#32) (hpc : a.pc = s.current.pc) :
    (s.patch a).Inv :=
  { hs with
    zeroRegister := h0
    nextAgrees   := rfl
    logLegal     := by
      obtain ⟨l, hl, e⟩ := hs.logLegal
      exact ⟨l, hl, by rw [State.patch_current, hpc]; exact e⟩ }

/-- Settles O55: a step and a run by `stepKeepsTheInvariant`, a mutator as a patch, a reset as a boot. -/
theorem everyHostActionKeepsTheInvariant : Obligations.EveryHostActionKeepsTheInvariant := by
  intro h s hs
  cases h with
  | step =>
    obtain ⟨t, ht⟩ := step_answers_next s
    exact ⟨t, ht, step_invFor s.config s t ⟨hs, rfl⟩ ht⟩
  | runFor n =>
    obtain ⟨t, ht⟩ := runFor_answers_next n s
    exact ⟨t, ht, runFor_induct (step_invFor s.config) n ⟨hs, rfl⟩ ht⟩
  | setRegister i v =>
    refine ⟨_, rfl, inv_patch hs ?_ (Arch.setReg_pc ..), rfl⟩
    rw [Arch.setReg_cell, if_neg (fun ⟨h, hne⟩ => hne h.symm)]
    exact hs.zeroRegister
  | setHi v => exact ⟨_, rfl, inv_patch hs hs.zeroRegister rfl, rfl⟩
  | setLo v => exact ⟨_, rfl, inv_patch hs hs.zeroRegister rfl, rfl⟩
  | reset => exact ⟨_, rfl, boot_inv hs.configLegal, rfl⟩

/-- Any list of host actions runs through from a state that meets the invariant. -/
theorem runActions_keeps_inv (hs : List HostAction) {s : State} (h : s.Inv) :
    ∃ t, runActions hs s = .next t ∧ t.Inv ∧ t.config = s.config := by
  induction hs generalizing s with
  | nil => exact ⟨s, rfl, h, rfl⟩
  | cons a hs ih =>
    obtain ⟨u, hu, hinv, hconfig⟩ := everyHostActionKeepsTheInvariant a s h
    obtain ⟨t, ht, htinv, htconfig⟩ := ih hinv
    exact ⟨t, by simpa only [runActions, hu] using ht, htinv, htconfig.trans hconfig⟩

/-- Settles O52: boot meets the invariant, and each action of the list keeps it. -/
theorem everyExecutionIsLegal : Obligations.EveryExecutionIsLegal :=
  fun _ hs hc => runActions_keeps_inv hs (boot_inv hc)

end Sys2Proof.Machine
end


section
/-! What programs cannot see (10_state.md R20, R32 to R34): an instruction reads `current`, memory, Status and the parameters,
and its answer depends on nothing else. -/

namespace Sys2Proof.Machine

/-- Both outcomes are next states, and programs see no difference between them once they are committed. -/
def SameOutcome (o o' : Host.Outcome State Fault Refusal) : Prop :=
  ∃ t t', o = .next t ∧ o' = .next t' ∧ SameToPrograms (commit t) (commit t')

/-- The meaning of an instruction names no field of the state but the four that the two states share, so that with these
identified both answers are written alike; a divide has two answers, chosen by the divisor alone. -/
theorem exec_sameOutcome (i : Instr) {s s' : State} (h : SameToPrograms s s') : SameOutcome (exec i s) (exec i s') := by
  obtain ⟨current, next, mem, status, count, log, config⟩ := s
  obtain ⟨current', next', mem', status', count', log', config'⟩ := s'
  obtain ⟨rfl, rfl, rfl, rfl⟩ := h
  cases i with
  | div f | divu f =>
    by_cases hz : current.reg f.rt = 0#32
    · exact ⟨_, _, if_pos hz, if_pos hz, rfl, rfl, rfl, rfl⟩
    · exact ⟨_, _, if_neg hz, if_neg hz, rfl, rfl, rfl, rfl⟩
  | _ => exact ⟨_, _, rfl, rfl, rfl, rfl, rfl, rfl⟩

/-- Both machines fetch the same word. -/
theorem fetch_eq_of_same {s s' : State} (h : SameToPrograms s s') : fetch s = fetch s' := by
  obtain ⟨hcurrent, hmem, -, hconfig⟩ := h
  rw [fetch, fetch, hcurrent, hmem, hconfig]

/-- A step keeps two states the same to programs: both machines take the same case of the cycle. -/
theorem step_same {s s' t t' : State} (h : SameToPrograms s s') (ht : step s = .next t) (ht' : step s' = .next t') :
    SameToPrograms t t' := by
  have hfetch := fetch_eq_of_same h
  obtain ⟨hcurrent, hmem, hstatus, hconfig⟩ := h
  cases hs : s.status with
  | halted =>
    rw [step_eq_self hs ht, step_eq_self (hstatus ▸ hs) ht']
    exact ⟨hcurrent, hmem, hstatus, hconfig⟩
  | running =>
    have hs' := hstatus ▸ hs
    cases hd : decode (fetch s) with
    | error u =>
      rw [step_eq_raise hs hd ht, step_eq_raise hs' (hfetch ▸ hd) ht']
      exact ⟨hcurrent, hmem, rfl, hconfig⟩
    | ok i =>
      obtain ⟨u, hu, rfl⟩ := step_eq_commit hs hd ht
      obtain ⟨u', hu', rfl⟩ := step_eq_commit hs' (hfetch ▸ hd) ht'
      obtain ⟨v, v', hv, hv', hsame⟩ := exec_sameOutcome i ⟨hcurrent, hmem, hstatus, hconfig⟩
      obtain rfl := Host.Outcome.next.inj (hv.symm.trans hu)
      obtain rfl := Host.Outcome.next.inj (hv'.symm.trans hu')
      exact hsame

/-- Settles O53: by induction on the length of the runs, `step_same` at each step. -/
theorem controlStateIsInvisibleToPrograms : Obligations.ControlStateIsInvisibleToPrograms := by
  intro n
  induction n with
  | zero =>
    intro s s' t t' h ht ht'
    obtain rfl := Host.Outcome.next.inj ht
    obtain rfl := Host.Outcome.next.inj ht'
    exact h
  | succ n ih =>
    intro s s' t t' h ht ht'
    obtain ⟨u, hu⟩ := step_answers_next s
    obtain ⟨u', hu'⟩ := step_answers_next s'
    rw [runFor_succ_of_step hu] at ht
    rw [runFor_succ_of_step hu'] at ht'
    exact ih u u' t t' (step_same h hu hu') ht ht'

end Sys2Proof.Machine
end

section
/-! The bus (20_memory.md R51 to R59): which accesses are admitted, the bytes of a word read or written, and the narrow
accesses of the load-store unit. -/

namespace Sys2Proof.Machine

/-! ### Admission -/

/-- In a legal region list an admitted access ends at the top of the space or below it (20_memory.md R51). -/
theorem mapped4_below_top {c : Config} {a : Word} (hc : c.wellFormed = true) (h : mapped4 c a = true) :
    a.toNat + 4 ≤ 2 ^ 32 := by
  obtain ⟨r, hr, -, hupper⟩ := mapped4_iff.1 h
  simp only [Config.wellFormed, Region.wellFormed, Bool.and_eq_true, List.all_eq_true, decide_eq_true_eq] at hc
  obtain ⟨-, hlegal⟩ := hc.1 r hr
  exact hupper.trans hlegal

/-- The addresses of the four bytes of an admitted access do not wrap. -/
theorem toNat_add_of_mapped4 {c : Config} {a : Word} (hc : c.wellFormed = true) (h : mapped4 c a = true) {d : Nat}
    (hd : d < 4) : (a + BitVec.ofNat 32 d).toNat = a.toNat + d := by
  have := mapped4_below_top hc h
  rw [BitVec.toNat_add, BitVec.toNat_ofNat]
  omega

/-- Settles O21: `Mapped4` is a search of the region list, and no legal region reaches past the top. -/
theorem mappedFourExactly : Obligations.MappedFourExactly := by
  refine ⟨fun c a => mapped4_iff, fun c a hc ha => Bool.eq_false_iff.2 fun h => ?_⟩
  have := mapped4_below_top hc h
  omega

/-! ### The bytes of a word -/

theorem byteOfWord_word (m : Memory) (a : Nat) {k : Nat} (hk : k < 4) : byteOfWord (m.word a) k = m.byte (a + k) := by
  obtain ⟨h0, h1, h2, h3⟩ := byteOfWord_wordOfBytes (m.byte a) (m.byte (a + 1)) (m.byte (a + 2)) (m.byte (a + 3))
  interval_cases k
  · exact h0
  · exact h1
  · exact h2
  · exact h3

/-- Bit `p` of a word is bit `p % 8` of its byte `p / 8`. -/
theorem getLsbD_eq_byteOfWord (v : Word) (p : Nat) : v.getLsbD p = (byteOfWord v (p / 8)).getLsbD (p % 8) := by
  rw [byteOfWord, BitVec.getLsbD_extractLsb', slice_bit v (Nat.mod_lt p (by decide)) (Nat.div_add_mod p 8)]

/-- Slices of whole bytes are equal when their bytes are. -/
theorem slice_eq_of_bytes {v w : Word} {i j n : Nat} (h : ∀ k < n, byteOfWord v (i + k) = byteOfWord w (j + k)) :
    v.extractLsb' (8 * i) (8 * n) = w.extractLsb' (8 * j) (8 * n) := by
  refine BitVec.eq_of_getLsbD_eq fun p hp => ?_
  have hbyte := h (p / 8) (by omega)
  simp only [BitVec.getLsbD_extractLsb', getLsbD_eq_byteOfWord _ (8 * _ + p), Nat.mul_add_div (by decide : 0 < 8),
    Nat.mul_add_mod, hbyte]

/-- Two words with the same four bytes are equal. -/
theorem word_eq_of_bytes {v w : Word} (h : ∀ k < 4, byteOfWord v k = byteOfWord w k) : v = w := by
  rw [← wordOfBytes_byteOfWord v, ← wordOfBytes_byteOfWord w, h 0 (by decide), h 1 (by decide), h 2 (by decide),
    h 3 (by decide)]

/-- The low `j` bytes of a word replaced by those of `v`: the read-modify-write of a narrow store (20_memory.md R57). -/
theorem byteOfWord_replaceLow (x : Word) {n r j k : Nat} (v : BitVec n) (e : r + n = 32) (hj : n = 8 * j) (hk : k < 4) :
    byteOfWord ((x.extractLsb' n r ++ v).cast e) k = if k < j then v.extractLsb' (8 * k) 8 else byteOfWord x k := by
  refine BitVec.eq_of_getLsbD_eq fun p hp => ?_
  simp only [byteOfWord, BitVec.getLsbD_extractLsb', BitVec.getLsbD_cast, BitVec.getLsbD_append, hp, decide_true,
    Bool.true_and]
  by_cases hkj : k < j
  · rw [if_pos (by omega), if_pos hkj, BitVec.getLsbD_extractLsb', decide_eq_true hp, Bool.true_and]
  · rw [if_neg (by omega), if_neg hkj, BitVec.getLsbD_extractLsb', slice_bit x (k := 8 * k + p) (by omega) (by omega),
      decide_eq_true hp, Bool.true_and]

/-! ### Bus reads and writes -/

theorem byteOfWord_read32 {c : Config} {a : Word} (m : Memory) (h : mapped4 c a = true) {k : Nat} (hk : k < 4) :
    byteOfWord (read32 c m a) k = m.byte (a.toNat + k) := by
  rw [read32_mapped m h, byteOfWord_word m a.toNat hk]

theorem byte_write32 {c : Config} {m : Memory} {a : Word} (hm : Memory.wf m) (v : Word) (h : mapped4 c a = true)
    (b : Nat) : (write32 c m a v).byte b =
      if a.toNat ≤ b ∧ b < a.toNat + 4 then byteOfWord v (b - a.toNat) else m.byte b := by
  rw [write32_mapped m v h, Memory.byte_setWord hm]

/-- A word read `d` bytes above a word written sees that word's bytes, `d` places down (20_memory.md R58). -/
theorem byteOfWord_read32_write32 {c : Config} {m : Memory} {a b : Word} (hm : Memory.wf m) (v : Word)
    (ha : mapped4 c a = true) (hb : mapped4 c b = true) {d k : Nat} (hd : b.toNat = a.toNat + d) (hk : d + k < 4) :
    byteOfWord (read32 c (write32 c m a v) b) k = byteOfWord v (d + k) := by
  rw [byteOfWord_read32 _ hb (by omega), byte_write32 hm v ha, hd, if_pos (by omega), Nat.add_assoc,
    Nat.add_sub_cancel_left]

/-- Settles O22: byte by byte where the access is admitted. -/
theorem busReadIsLittleEndian : Obligations.BusReadIsLittleEndian :=
  fun _ m _ => ⟨fun h _ hk => byteOfWord_read32 m h hk, read32_unmapped m⟩

/-- Settles O23: the four bytes and their frame are the two branches of `byte_write32`. -/
theorem busWriteStoresFourBytes : Obligations.BusWriteStoresFourBytes := by
  refine fun c m a v hm => ⟨fun h => ⟨fun k hk => ?_, fun b hb => ?_⟩, write32_unmapped m v⟩
  · rw [byte_write32 hm v h, if_pos (by omega), Nat.add_sub_cancel_left]
    rfl
  · rw [byte_write32 hm v h, if_neg (by omega)]

/-- Settles O24: where the access is admitted the word read has the bytes of the word written. -/
theorem busReadAfterWrite : Obligations.BusReadAfterWrite := by
  intro c m a v hm
  cases h : mapped4 c a with
  | false => exact read32_unmapped _ h
  | true =>
    refine word_eq_of_bytes fun k hk => ?_
    rw [byteOfWord_read32_write32 hm v h h (d := 0) rfl (by omega), Nat.zero_add]
    rfl

/-! ### Narrow accesses -/

theorem memRead1_mapped {c : Config} {a : Word} (m : Memory) (h : mapped4 c a = true) :
    memRead1 c m a = m.byte a.toNat := byteOfWord_read32 m h (by decide : 0 < 4)

theorem memRead2_toNat {c : Config} {a : Word} (m : Memory) (h : mapped4 c a = true) :
    (memRead2 c m a).toNat = (m.byte a.toNat).toNat + 2 ^ 8 * (m.byte (a.toNat + 1)).toNat := by
  have h0 := byteOfWord_read32 m h (by decide : 0 < 4)
  have h1 := byteOfWord_read32 m h (by decide : 1 < 4)
  rw [← h1, ← Nat.add_zero a.toNat, ← h0, byteOfWord_toNat, byteOfWord_toNat, memRead2, BitVec.extractLsb'_toNat,
    Nat.shiftRight_eq_div_pow]
  omega

/-- A read-modify-write of the low `j` bytes of the word at `a` changes those bytes only. -/
theorem byte_write32_replaceLow {c : Config} {m : Memory} {a : Word} (hm : Memory.wf m) (h : mapped4 c a = true)
    {n r j : Nat} (v : BitVec n) (e : r + n = 32) (hj : n = 8 * j) (b : Nat) :
    (write32 c m a (((read32 c m a).extractLsb' n r ++ v).cast e)).byte b =
      if a.toNat ≤ b ∧ b < a.toNat + j then v.extractLsb' (8 * (b - a.toNat)) 8 else m.byte b := by
  rw [byte_write32 hm _ h]
  by_cases hb : a.toNat ≤ b ∧ b < a.toNat + 4
  · obtain ⟨k, rfl⟩ := Nat.exists_eq_add_of_le hb.1
    have hk : k < 4 := by omega
    rw [if_pos hb, Nat.add_sub_cancel_left, byteOfWord_replaceLow _ v e hj hk, byteOfWord_read32 m h hk]
    simp only [Nat.le_add_right, Nat.add_lt_add_iff_left, true_and]
  · rw [if_neg hb, if_neg (by omega)]

theorem byte_memWrite1 {c : Config} {m : Memory} {a : Word} (hm : Memory.wf m) (h : mapped4 c a = true) (v : Byte)
    (b : Nat) : (memWrite1 c m a v).byte b = if b = a.toNat then v else m.byte b := by
  rw [memWrite1, byte_write32_replaceLow hm h v rfl (j := 1) rfl]
  by_cases hb : b = a.toNat
  · subst hb; simp
  · rw [if_neg (by omega), if_neg hb]

theorem byte_memWrite2 {c : Config} {m : Memory} {a : Word} (hm : Memory.wf m) (h : mapped4 c a = true)
    (w : BitVec 16) (b : Nat) : (memWrite2 c m a w).byte b =
      if b = a.toNat then w.extractLsb' 0 8 else if b = a.toNat + 1 then w.extractLsb' 8 8 else m.byte b := by
  rw [memWrite2, byte_write32_replaceLow hm h w rfl (j := 2) rfl]
  by_cases h0 : b = a.toNat
  · subst h0; simp
  · by_cases h1 : b = a.toNat + 1
    · subst h1; simp
    · rw [if_neg (by omega), if_neg h0, if_neg h1]

/-- Settles O25: each narrow access by its law where the word is admitted; elsewhere the bus reads 0 and drops
the write. -/
theorem narrowAccessesTouchTheirBytes : Obligations.NarrowAccessesTouchTheirBytes := by
  refine fun c m a v w hm => ⟨fun h => ?_, fun h => ?_, rfl, fun _ => rfl⟩
  · exact ⟨memRead1_mapped m h, memRead2_toNat m h, byte_memWrite1 hm h v, byte_memWrite2 hm h w⟩
  · refine ⟨?_, ?_, write32_unmapped m _ h, write32_unmapped m _ h⟩
    · rw [memRead1, read32_unmapped m h]; rfl
    · rw [memRead2, read32_unmapped m h]; rfl

/-- Settles O26: each read is a slice of whole bytes of the word at `a + d`, which are those of `v`, `d` places down. -/
theorem mixedWidthsSeeEachOther : Obligations.MixedWidthsSeeEachOther := by
  intro c m a v hc hm h
  have seen {b : Word} (hb : mapped4 c b = true) {d n : Nat} (hd : b.toNat = a.toNat + d) (hn : d + n ≤ 4) :
      (read32 c (write32 c m a v) b).extractLsb' (8 * 0) (8 * n) = v.extractLsb' (8 * d) (8 * n) :=
    slice_eq_of_bytes fun k hk => by
      rw [Nat.zero_add, byteOfWord_read32_write32 hm v h hb hd (by omega)]
  refine ⟨seen h (d := 0) (n := 1) rfl (by decide), fun h1 => ?_, fun h2 => ?_⟩
  · have hd := toNat_add_of_mapped4 hc h (by decide : 1 < 4)
    exact ⟨seen h1 (n := 1) hd (by decide), seen h1 (n := 3) hd (by decide)⟩
  · exact seen h2 (n := 2) (toNat_add_of_mapped4 hc h (by decide : 2 < 4)) (by decide)

end Sys2Proof.Machine
end

section
/-! Memory in the cycle (20_memory.md R50, R66, R69): which instructions write it, and what the next fetch sees. -/

namespace Sys2Proof.Machine

/-- Memory is kept by every instruction but a store, which is one bus write at its effective address. -/
theorem exec_mem_cases {i : Instr} {s t : State} (h : exec i s = .next t) :
    (i.storeWidth = 0 ∧ t.mem = s.mem) ∨
    (i.storeWidth ≠ 0 ∧ ∃ (f : IType) (v : Word), (i = .sb f ∨ i = .sh f ∨ i = .sw f) ∧
      t.mem = write32 s.config s.mem (effectiveAddress s f) v) := by
  rcases exec_shapes i s with ⟨d, v, -, hw, -, e⟩ | ⟨hi, lo, -, hw, -, -, e⟩ | ⟨taken, target, -, hw, e⟩ |
    ⟨d, v, target, -, -, hw, e⟩ | ⟨f, v, hi, e⟩ | ⟨d, hd, -, e⟩ | ⟨f, hi, e⟩ <;>
  obtain rfl := Host.Outcome.next.inj (e.symm.trans h)
  · exact .inl ⟨hw, rfl⟩
  · exact .inl ⟨hw, rfl⟩
  · exact .inl ⟨hw, rfl⟩
  · exact .inl ⟨hw, rfl⟩
  · refine .inr ⟨?_, f, v, hi, rfl⟩
    rcases hi with rfl | rfl | rfl <;> nofun
  · refine .inl ⟨?_, rfl⟩
    cases i with
    | div | divu => rfl
    | _ => cases hd
  · exact .inl ⟨hi ▸ rfl, rfl⟩

/-- Settles O31: by the two cases of `exec_mem_cases`. -/
theorem onlyStoresWriteMemory : Obligations.OnlyStoresWriteMemory := by
  intro i s t h
  rcases exec_mem_cases h with ⟨hw, hmem⟩ | ⟨hw, hstore⟩
  · exact ⟨fun _ => hmem, fun hne => absurd hw hne⟩
  · exact ⟨fun h0 => absurd h0 hw, fun _ => hstore⟩

/-- Settles O41: after commit the fetch is a bus read at the address just written. -/
theorem storeIsSeenByTheNextFetch : Obligations.StoreIsSeenByTheNextFetch := by
  intro f s hm hea h
  refine ⟨_, rfl, ?_⟩
  calc read32 s.config (write32 s.config s.mem (effectiveAddress s f) (s.x f.rt)) (s.current.pc + 4#32)
    _ = if mapped4 s.config (effectiveAddress s f) then s.x f.rt else 0#32 := by
      rw [← hea]; exact busReadAfterWrite _ _ _ _ hm
    _ = s.x f.rt := if_pos h

end Sys2Proof.Machine
end

section
/-! The order of the regions (20_memory.md R51, R52): the machine sees the region list through `Mapped4` only, which
asks whether SOME region admits the access, so that a permutation of the list commutes with every operation. -/

namespace Sys2Proof.Machine

section
variable {c : Config} {rs : List Region} (hp : rs.Perm c.regions)
include hp

theorem mapped4_of_perm (a : Word) : mapped4 { c with regions := rs } a = mapped4 c a :=
  Bool.eq_iff_iff.2 (by simp only [mapped4_iff, hp.mem_iff])

theorem read32_of_perm (m : Memory) (a : Word) : read32 { c with regions := rs } m a = read32 c m a := by
  rw [read32, mapped4_of_perm hp, read32]

theorem write32_of_perm (m : Memory) (a v : Word) : write32 { c with regions := rs } m a v = write32 c m a v := by
  rw [write32, mapped4_of_perm hp, write32]

end

section
variable {s : State} {rs : List Region} (hp : rs.Perm s.config.regions)
include hp

theorem fetch_withRegions : fetch (s.withRegions rs) = fetch s := read32_of_perm hp s.mem s.current.pc

/-- Only the loads and the stores name the parameters, and they only pass them to the bus. -/
theorem exec_withRegions {i : Instr} {t : State} (h : exec i s = .next t) :
    exec i (s.withRegions rs) = .next (t.withRegions rs) := by
  cases i with
  | lb f | lh f | lw f =>
    obtain rfl := Host.Outcome.next.inj h
    simp only [exec, execLb, execLh, execLw, memRead1, memRead2, memRead4, State.withRegions_config, read32_of_perm hp]
    rfl
  | sb f | sh f | sw f =>
    obtain rfl := Host.Outcome.next.inj h
    simp only [exec, execSb, execSh, execSw, memWrite1, memWrite2, memWrite4, State.withRegions_config,
      read32_of_perm hp, write32_of_perm hp]
    rfl
  | div f | divu f =>
    by_cases hz : s.x f.rt = 0#32
    · obtain rfl := Host.Outcome.next.inj ((if_pos hz).symm.trans h)
      exact if_pos hz
    · obtain rfl := Host.Outcome.next.inj ((if_neg hz).symm.trans h)
      exact if_neg hz
  | _ =>
    obtain rfl := Host.Outcome.next.inj h
    rfl

/-- A step commutes with the permutation in each of its three cases. -/
theorem step_withRegions {t : State} (h : step s = .next t) : step (s.withRegions rs) = .next (t.withRegions rs) := by
  have hfetch := fetch_withRegions hp
  rcases step_cases h with ⟨hs, rfl⟩ | ⟨hs, u, hu, rfl⟩ | ⟨hs, i, u, hi, hu, rfl⟩
  · exact step_of_halted hs
  · exact step_of_error hs (hfetch ▸ hu)
  · exact step_of_ok (s := s.withRegions rs) hs (hfetch ▸ hi) (exec_withRegions hp hu)

end

/-- Settles O54: by induction on the length of the run; no step changes the region list. -/
theorem regionOrderHasNoEffect : Obligations.RegionOrderHasNoEffect := by
  intro n
  induction n with
  | zero =>
    intro s t rs _ h
    obtain rfl := Host.Outcome.next.inj h
    rfl
  | succ n ih =>
    intro s t rs hp h
    obtain ⟨u, hu⟩ := step_answers_next s
    rw [runFor_succ_of_step hu] at h
    rw [runFor_succ_of_step (step_withRegions hp hu)]
    exact ih u t rs (step_config hu ▸ hp) h

end Sys2Proof.Machine
end

section
/-! The Decoder and the encoder (30_encoding.md R81 to R94): each is the other's inverse, the supported words are the rows of
the opcode map, every other word is Unsupported. All of it format by format:
an instruction is an entry of one of the three tables with its fields, or J or JAL. -/

namespace Sys2Proof

/-! ### The formats -/

/-- What the opcode map says: the instruction has the word. One constructor for each table, one each for J and JAL. -/
inductive Instr.HasWord : Instr → Word → Prop
  | rType {fn : BitVec 6} {c : RType → Instr} (h : rTypeOf fn = some c) (f : RType) : HasWord (c f) (encodeR fn f)
  | regimm {code : BitVec 5} {c : RegimmType → Instr} (h : regimmOf code = some c) (f : RegimmType) :
      HasWord (c f) (encodeRegimm code f)
  | j (f : JType) : HasWord (.j f) (encodeJ 0x02#6 f)
  | jal (f : JType) : HasWord (.jal f) (encodeJ 0x03#6 f)
  | iType {op : BitVec 6} {c : IType → Instr} (h : iTypeOf op = some c) (f : IType) : HasWord (c f) (encodeI op f)

/-- The encoder follows the map, which leaves out no instruction. -/
theorem hasWord_encode (i : Instr) : i.HasWord (encode i) := by
  cases i with
  | sll f | srl f | sra f | jr f | jalr f | syscall f | mfhi f | mthi f | mflo f | mtlo f | mult f | multu f | div f
  | divu f | add f | addu f | sub f | subu f | and f | or f | xor f | nor f | slt f => exact .rType rfl f
  | beq f | bne f | blez f | bgtz f | addi f | addiu f | slti f | andi f | ori f | xori f | lui f | lb f | lh f | lw f
  | sb f | sh f | sw f => exact .iType rfl f
  | bltz f | bgez f => exact .regimm rfl f
  | j f => exact .j f
  | jal f => exact .jal f

/-- The Decoder follows the map. -/
theorem Instr.HasWord.decode_eq {i : Instr} {w : Word} (h : i.HasWord w) : decode w = .ok i := by
  cases h with
  | rType hc f => exact decode_encodeR hc f
  | regimm hc f => exact decode_encodeRegimm hc f
  | j f => exact (decode_encodeJ f).1
  | jal f => exact (decode_encodeJ f).2
  | iType hc f => exact decode_encodeI hc f

/-- The Decoder accepts no word that the map does not give to the instruction. -/
theorem hasWord_of_decode {i : Instr} {w : Word} (h : decode w = .ok i) : i.HasWord w :=
  encode_of_decode h ▸ hasWord_encode i

/-! ### The round trip -/

theorem decode_encode (i : Instr) : decode (encode i) = .ok i := (hasWord_encode i).decode_eq

/-- Settles O1: an entry of a table with its fields encodes to a word that selects the same entry and the same fields. -/
theorem encodedInstructionDecodesToItself : Obligations.EncodedInstructionDecodesToItself :=
  decode_encode

/-- Settles O2: every bit of a supported word is in the selecting value or in a field, `encode_of_decode`. -/
theorem decodedWordEncodesToItself : Obligations.DecodedWordEncodesToItself :=
  fun _ _ h => encode_of_decode h

/-- Settles O6: each example word is the encoding of its instruction. -/
theorem specExampleWordsDecode : Obligations.SpecExampleWordsDecode :=
  ⟨decode_encode (.addiu ⟨0#5, 1#5, 5#16⟩), decode_encode (.add ⟨1#5, 2#5, 3#5, 0#5⟩),
    decode_encode (.syscall ⟨0#5, 0#5, 0#5, 0#5⟩), decode_encode (.jal ⟨0x0100008#26⟩),
    decode_encode (.beq ⟨9#5, 10#5, 2#16⟩), decode_encode (.lw ⟨16#5, 8#5, 0xFFFC#16⟩),
    decode_encode (.sra ⟨0#5, 10#5, 8#5, 4#5⟩), decode_encode (.bgez ⟨9#5, 4#16⟩)⟩

/-! ### A word by its selecting bits (30_encoding.md R87): it is the encoding of its own fields -/

section
variable {w : Word}

theorem decode_of_rTypeOf {c : RType → Instr} (h0 : opcodeField w = 0#6) (h : rTypeOf (functField w) = some c) :
    decode w = .ok (c (rTypeFields w)) := by
  simpa only [encodeR_fields h0] using decode_encodeR h (rTypeFields w)

theorem decode_of_regimmOf {c : RegimmType → Instr} (h1 : opcodeField w = 1#6)
    (h : regimmOf (branchCodeField w) = some c) : decode w = .ok (c (regimmFields w)) := by
  simpa only [encodeRegimm_fields h1] using decode_encodeRegimm h (regimmFields w)

theorem decode_of_iTypeOf {c : IType → Instr} (h : iTypeOf (opcodeField w) = some c) :
    decode w = .ok (c (iTypeFields w)) := by
  simpa only [encodeI_fields] using decode_encodeI h (iTypeFields w)

theorem decode_j (h2 : opcodeField w = 2#6) : decode w = .ok (.j (jTypeFields w)) := by
  have e := encodeJ_fields w
  rw [h2] at e
  simpa only [e] using (decode_encodeJ (jTypeFields w)).1

theorem decode_jal (h3 : opcodeField w = 3#6) : decode w = .ok (.jal (jTypeFields w)) := by
  have e := encodeJ_fields w
  rw [h3] at e
  simpa only [e] using (decode_encodeJ (jTypeFields w)).2

/-- The Unsupported words (R86, R87): the table that the opcode selects has no entry. -/
theorem decode_error_iff : (∃ u, decode w = .error u) ↔
    (opcodeField w = 0#6 ∧ rTypeOf (functField w) = none) ∨
    (opcodeField w = 1#6 ∧ regimmOf (branchCodeField w) = none) ∨
    ((opcodeField w ≠ 0#6 ∧ opcodeField w ≠ 1#6 ∧ opcodeField w ≠ 2#6 ∧ opcodeField w ≠ 3#6) ∧
      iTypeOf (opcodeField w) = none) := by
  unfold decode
  by_cases h0 : opcodeField w = 0#6
  · cases rTypeOf (functField w) <;> simp [h0]
  by_cases h1 : opcodeField w = 1#6
  · cases regimmOf (branchCodeField w) <;> simp [h1]
  by_cases h2 : opcodeField w = 2#6
  · simp [h2]
  by_cases h3 : opcodeField w = 3#6
  · simp [h3]
  cases iTypeOf (opcodeField w) <;> simp [h0, h1, h2, h3]

end

/-! ### The fields as numbers -/

theorem slice_toNat (w : Word) (lo n : Nat) : (w.extractLsb' lo n).toNat = w.toNat / 2 ^ lo % 2 ^ n := by
  rw [BitVec.extractLsb'_toNat, Nat.shiftRight_eq_div_pow]

/-- A slice from bit 0 is a remainder. -/
theorem lowSlice_toNat (w : Word) (n : Nat) : (w.extractLsb' 0 n).toNat = w.toNat % 2 ^ n := by
  rw [slice_toNat, pow_zero, Nat.div_one]

theorem opcodeField_toNat (w : Word) : (opcodeField w).toNat = w.toNat / 2 ^ 26 := by
  rw [opcodeField, slice_toNat]
  exact Nat.mod_eq_of_lt (by omega)

/-- The opcode of a word whose top six bits are given as a number. -/
theorem opcodeField_eq {w : Word} {op : BitVec 6} (h : w.toNat / 2 ^ 26 = op.toNat) : opcodeField w = op :=
  BitVec.eq_of_toNat_eq ((opcodeField_toNat w).trans h)

/-- Settles O5: by the Decoder's answer in each format, whose fields are slices by definition. -/
theorem decodedFieldsAreSlices : Obligations.DecodedFieldsAreSlices :=
  ⟨fun w _ h0 hc => ⟨rTypeFields w, decode_of_rTypeOf (opcodeField_eq h0) hc,
      slice_toNat w 21 5, slice_toNat w 16 5, slice_toNat w 11 5, slice_toNat w 6 5⟩,
    fun w _ h1 hc => ⟨regimmFields w, decode_of_regimmOf (opcodeField_eq h1) hc, slice_toNat w 21 5, lowSlice_toNat w 16⟩,
    fun w h2 => ⟨jTypeFields w, decode_j (opcodeField_eq h2), lowSlice_toNat w 26⟩,
    fun w h3 => ⟨jTypeFields w, decode_jal (opcodeField_eq h3), lowSlice_toNat w 26⟩,
    fun w _ _ hc => ⟨iTypeFields w, decode_of_iTypeOf hc, slice_toNat w 21 5, slice_toNat w 16 5, lowSlice_toNat w 16⟩⟩

/-! ### The Unsupported words, listed (30_encoding.md R94) -/

theorem rTypeOf_eq_none_iff : ∀ fn : BitVec 6, rTypeOf fn = none ↔ fn.toNat ∈
    [1, 4, 5, 6, 7, 10, 11, 13, 14, 15, 20, 21, 22, 23, 28, 29, 30, 31, 40, 41, 43] ++ List.range' 44 20 := by
  decide

theorem regimmOf_eq_none_iff : ∀ code : BitVec 5, regimmOf code = none ↔ 2 ≤ code.toNat := by decide

theorem iTypeOf_eq_none_iff : ∀ op : BitVec 6,
    ((op ≠ 0#6 ∧ op ≠ 1#6 ∧ op ≠ 2#6 ∧ op ≠ 3#6) ∧ iTypeOf op = none) ↔ op.toNat ∈
      [11] ++ List.range' 16 16 ++ [34, 36, 37, 38, 39, 42] ++ List.range' 44 20 := by
  decide

/-- Settles O4: the selecting values that each table leaves out; the variant is built from the word alone. -/
theorem unsupportedWordsExactly : Obligations.UnsupportedWordsExactly := by
  intro w
  constructor
  · rw [decode_error_iff, rTypeOf_eq_none_iff, regimmOf_eq_none_iff, iTypeOf_eq_none_iff]
  · intro u h
    obtain rfl := Machine.decode_error_eq h
    exact ⟨rfl, opcodeField_toNat w, lowSlice_toNat w 6⟩

/-! ### The rows (30_encoding.md R89 to R92): the row of an instruction depends on its selecting value only -/

theorem row_of_rTypeOf {fn : BitVec 6} {c : RType → Instr} (h : rTypeOf fn = some c) (f : RType) :
    (c f).row = ⟨(c ⟨0#5, 0#5, 0#5, 0#5⟩).row.mnemonic, encodeR fn ⟨0#5, 0#5, 0#5, 0#5⟩, 0xFC00003F#32⟩ := by
  have entry : ∀ e ∈ rTypeTable, (e.2 f).row =
      ⟨(e.2 ⟨0#5, 0#5, 0#5, 0#5⟩).row.mnemonic, encodeR e.1 ⟨0#5, 0#5, 0#5, 0#5⟩, 0xFC00003F#32⟩ := by
    simp [rTypeTable, Instr.row, encodeR]
  exact entry _ (mem_of_lookup h)

theorem row_of_regimmOf {code : BitVec 5} {c : RegimmType → Instr} (h : regimmOf code = some c) (f : RegimmType) :
    (c f).row = ⟨(c ⟨0#5, 0#16⟩).row.mnemonic, encodeRegimm code ⟨0#5, 0#16⟩, 0xFC1F0000#32⟩ := by
  have entry : ∀ e ∈ regimmTable,
      (e.2 f).row = ⟨(e.2 ⟨0#5, 0#16⟩).row.mnemonic, encodeRegimm e.1 ⟨0#5, 0#16⟩, 0xFC1F0000#32⟩ := by
    simp [regimmTable, Instr.row, encodeRegimm]
  exact entry _ (mem_of_lookup h)

theorem row_of_iTypeOf {op : BitVec 6} {c : IType → Instr} (h : iTypeOf op = some c) (f : IType) :
    (c f).row = ⟨(c ⟨0#5, 0#5, 0#16⟩).row.mnemonic, encodeI op ⟨0#5, 0#5, 0#16⟩, 0xFC000000#32⟩ := by
  have entry : ∀ e ∈ iTypeTable,
      (e.2 f).row = ⟨(e.2 ⟨0#5, 0#5, 0#16⟩).row.mnemonic, encodeI e.1 ⟨0#5, 0#5, 0#16⟩, 0xFC000000#32⟩ := by
    simp [iTypeTable, Instr.row, encodeI]
  exact entry _ (mem_of_lookup h)

/-- The table lists the row of every instruction: that of the sample with the same selecting value. -/
theorem Instr.HasWord.row_mem {i : Instr} {w : Word} (h : i.HasWord w) : i.row ∈ opcodeTable := by
  cases h with
  | rType hc f =>
    rw [(row_of_rTypeOf hc f).trans (row_of_rTypeOf hc ⟨0#5, 0#5, 0#5, 0#5⟩).symm]
    exact List.mem_map_of_mem (List.mem_append_left _ (List.mem_map.2 ⟨_, mem_of_lookup hc, rfl⟩))
  | regimm hc f =>
    rw [(row_of_regimmOf hc f).trans (row_of_regimmOf hc ⟨0#5, 0#16⟩).symm]
    exact List.mem_map_of_mem (List.mem_append_right _ (List.mem_append_right _
      (List.mem_append_left _ (List.mem_map.2 ⟨_, mem_of_lookup hc, rfl⟩))))
  | j f => exact List.mem_map_of_mem (a := Instr.j ⟨0#26⟩) (by simp [Instr.samples])
  | jal f => exact List.mem_map_of_mem (a := Instr.jal ⟨0#26⟩) (by simp [Instr.samples])
  | iType hc f =>
    rw [(row_of_iTypeOf hc f).trans (row_of_iTypeOf hc ⟨0#5, 0#5, 0#16⟩).symm]
    exact List.mem_map_of_mem (List.mem_append_right _
      (List.mem_append_left _ (List.mem_map.2 ⟨_, mem_of_lookup hc, rfl⟩)))

/-- The word of an instruction matches its row. -/
theorem Instr.HasWord.mask_eq {i : Instr} {w : Word} (h : i.HasWord w) : w &&& i.row.mask = i.row.pattern := by
  cases h with
  | rType hc f => rw [row_of_rTypeOf hc]; exact Laws.rowMask_encodeR _ f
  | regimm hc f => rw [row_of_regimmOf hc]; exact Laws.rowMask_encodeRegimm _ f
  | j f => exact Laws.TableRow.j f
  | jal f => exact Laws.TableRow.jal f
  | iType hc f => rw [row_of_iTypeOf hc]; exact Laws.rowMask_encodeI _ f

/-- Two words that agree under a mask agree in every field that the mask covers. -/
theorem slice_eq_of_mask {v w m : Word} (lo n : Nat) (h : w &&& m = v &&& m)
    (hm : m.extractLsb' lo n = BitVec.allOnes n) : w.extractLsb' lo n = v.extractLsb' lo n := by
  simpa only [BitVec.extractLsb'_and, hm, BitVec.and_allOnes] using congrArg (BitVec.extractLsb' lo n) h

/-- Every mask covers the opcode. -/
theorem opcodeField_mask : ∀ r ∈ opcodeTable, opcodeField r.mask = BitVec.allOnes 6 := by decide

/-- A word that matches the row of an instruction decodes to an instruction of that row: the mask covers the selecting
bits. -/
theorem Instr.HasWord.decode_of_mask_eq {i : Instr} {v w : Word} (h : i.HasWord v)
    (hw : w &&& i.row.mask = i.row.pattern) : ∃ i', decode w = .ok i' ∧ i'.row = i.row := by
  replace hw := hw.trans h.mask_eq.symm
  have hop : opcodeField w = opcodeField v := slice_eq_of_mask 26 6 hw (opcodeField_mask _ h.row_mem)
  cases h with
  | @rType fn c hc f =>
    rw [row_of_rTypeOf hc] at hw
    rw [opcodeField_encodeR] at hop
    have hfn : functField w = fn :=
      (slice_eq_of_mask (m := 0xFC00003F#32) 0 6 hw (by decide)).trans (functField_encodeR fn f)
    exact ⟨_, decode_of_rTypeOf hop (hfn ▸ hc), (row_of_rTypeOf hc _).trans (row_of_rTypeOf hc f).symm⟩
  | @regimm code c hc f =>
    rw [row_of_regimmOf hc] at hw
    rw [opcodeField_encodeRegimm] at hop
    have hcode : branchCodeField w = code :=
      (slice_eq_of_mask (m := 0xFC1F0000#32) 16 5 hw (by decide)).trans (branchCodeField_encodeRegimm code f)
    exact ⟨_, decode_of_regimmOf hop (hcode ▸ hc), (row_of_regimmOf hc _).trans (row_of_regimmOf hc f).symm⟩
  | j f => exact ⟨_, decode_j (hop.trans (opcodeField_encodeJ _ f)), rfl⟩
  | jal f => exact ⟨_, decode_jal (hop.trans (opcodeField_encodeJ _ f)), rfl⟩
  | iType hc f =>
    rw [opcodeField_encodeI] at hop
    exact ⟨_, decode_of_iTypeOf (hop ▸ hc), (row_of_iTypeOf hc _).trans (row_of_iTypeOf hc f).symm⟩

/-- Settles O3: the word of an instruction matches its row, and what matches a row has its selecting bits. -/
theorem supportedWordsAreTheTableRows : Obligations.SupportedWordsAreTheTableRows := by
  constructor
  · intro w i h
    exact ⟨(hasWord_of_decode h).row_mem, (hasWord_of_decode h).mask_eq⟩
  · intro w row hrow hw
    obtain ⟨i, -, rfl⟩ := List.mem_map.1 hrow
    exact (hasWord_encode i).decode_of_mask_eq hw

end Sys2Proof
end

section
/-! The fields an instruction ignores (30_encoding.md R93) are not read by its meaning; only the record of a divide by zero,
which holds the word, shows them. -/

namespace Sys2Proof.Machine

theorem row_clearIgnored (i : Instr) : i.clearIgnored.row = i.row := by cases i <;> rfl

theorem divisor_clearIgnored (i : Instr) : i.clearIgnored.divisor = i.divisor := by cases i <;> rfl

/-- No meaning reads an ignored field: without a record both instructions answer the same. -/
theorem exec_clearIgnored {i : Instr} {s : State} (hi : ∀ d, i.divisor = some d → s.x d ≠ 0#32) :
    exec i.clearIgnored s = exec i s := by
  cases i with
  | div f | divu f =>
    have hz : s.x f.rt ≠ 0#32 := hi f.rt rfl
    exact (if_neg hz).trans (if_neg hz).symm
  | _ => rfl

/-- Settles O7: in a divide by zero the two answers differ in the word of the record only, elsewhere in nothing. -/
theorem ignoredFieldsHaveNoEffect : Obligations.IgnoredFieldsHaveNoEffect := by
  intro i s t h
  refine ⟨row_clearIgnored i, ?_⟩
  by_cases hz : ∃ d, i.divisor = some d ∧ s.x d = 0#32
  · obtain ⟨d, hd, hz⟩ := hz
    obtain rfl := Host.Outcome.next.inj ((exec_divZero hd hz).symm.trans h)
    have hclear := exec_divZero ((divisor_clearIgnored i).trans hd) hz
    exact ⟨_, hclear, rfl, rfl, rfl, rfl, rfl, rfl, by simp [recordArithmetic]⟩
  · have hclear := exec_clearIgnored fun d hd h0 => hz ⟨d, hd, h0⟩
    exact ⟨t, hclear.trans h, rfl, rfl, rfl, rfl, rfl, rfl, rfl⟩

end Sys2Proof.Machine
end

section
/-! Add and subtract (40_arithmetic.md R110 to R116): the word operation is the low 32 bits of the exact one, and every one
of the six instructions answers by writing that word to one register. -/

namespace Sys2Proof.Machine

/-- An instruction that answers by writing `v` to register `d` completes, changes only that register and the pc, and what is
known of `v` is known of the value written. -/
theorem onlyReg_of_answerReg {i : Instr} {s : State} {d : RegNum} {v : Word} (h : exec i s = answerReg s d v)
    {P : Word → Prop} (hv : P v) : ∃ t w, exec i s = .next t ∧ OnlyReg s t d w ∧ P w := by
  obtain ⟨t, ht, honly⟩ := answerReg_spec s d v
  exact ⟨t, v, h.trans ht, honly, hv⟩

theorem add_eq_ofInt_toInt (a b : Word) : a + b = BitVec.ofInt 32 (a.toInt + b.toInt) := by
  rw [BitVec.ofInt_add, BitVec.ofInt_toInt, BitVec.ofInt_toInt]

theorem sub_eq_ofInt_toInt (a b : Word) : a - b = BitVec.ofInt 32 (a.toInt - b.toInt) :=
  BitVec.eq_of_toInt_eq (by rw [BitVec.toInt_sub, BitVec.toInt_ofInt])

/-- The same low 32 bits from the unsigned operand values: a borrow adds 2^32. -/
theorem sub_toNat_eq_emod (a b : Word) : ((a - b).toNat : Int) = ((a.toNat : Int) - b.toNat) % 2 ^ 32 := by
  have hb : b.toNat < 2 ^ 32 := b.isLt
  rw [BitVec.toNat_sub]
  omega

/-- Sign extension keeps the signed value of an immediate (30_encoding.md R88). -/
theorem signedImm_toInt (imm : BitVec 16) : (signedImm imm).toInt = imm.toInt :=
  BitVec.toInt_signExtend_of_le (by decide)

theorem add_signedImm_eq_ofInt (a : Word) (imm : BitVec 16) :
    a + signedImm imm = BitVec.ofInt 32 (a.toInt + imm.toInt) := by
  rw [add_eq_ofInt_toInt, signedImm_toInt]

/-- The result shared by ADDI and ADDIU. -/
theorem answerReg_addImm (f : IType) (s : State) :
    ∃ t, answerReg s f.rt (s.x f.rs + signedImm f.imm16) = .next t ∧
      OnlyReg s t f.rt (BitVec.ofInt 32 ((s.x f.rs).toInt + f.imm16.toInt)) := by
  rw [add_signedImm_eq_ofInt]
  exact answerReg_spec s f.rt _

/-- Settles O8: each of the six is an `answerReg` of the word sum or difference, which is the low 32 bits of the exact one
for the signed and for the unsigned operand values. -/
theorem addSubtractResults : Obligations.AddSubtractResults := by
  intro f g s
  have hadd := And.intro (add_eq_ofInt_toInt (s.x f.rs) (s.x f.rt)) (BitVec.toNat_add (s.x f.rs) (s.x f.rt))
  have hsub := And.intro (sub_eq_ofInt_toInt (s.x f.rs) (s.x f.rt)) (sub_toNat_eq_emod (s.x f.rs) (s.x f.rt))
  refine ⟨⟨decode_encode (.add f), ?_⟩, ⟨decode_encode (.addu f), ?_⟩, ⟨decode_encode (.sub f), ?_⟩,
    ⟨decode_encode (.subu f), ?_⟩, ⟨decode_encode (.addi g), ?_⟩, ⟨decode_encode (.addiu g), ?_⟩⟩
  · exact onlyReg_of_answerReg rfl hadd
  · exact onlyReg_of_answerReg rfl hadd
  · exact onlyReg_of_answerReg rfl hsub
  · exact onlyReg_of_answerReg rfl hsub
  · exact answerReg_addImm g s
  · exact answerReg_addImm g s

end Sys2Proof.Machine
end

section
/-! Bitwise logic and load-upper (41_logical.md R120 to R128): each of the eight answers by writing one word to one register;
what is left to say is the bits of the zero-extended immediate and the value of the upper one. -/

namespace Sys2Proof.Machine

/-- The high 16 bits of a logical immediate are 0 (30_encoding.md R88). -/
theorem getLsbD_logicalImm (imm : BitVec 16) {k : Nat} (hk : k < 32) :
    (logicalImm imm).getLsbD k = (decide (k < 16) && imm.getLsbD k) := by
  unfold logicalImm zext32
  rw [BitVec.getLsbD_setWidth]
  by_cases h : k < 16
  · simp [h, hk]
  · simp [h, BitVec.getLsbD_of_ge imm k (by omega)]

theorem upperImm_toNat (imm : BitVec 16) : (upperImm imm).toNat = imm.toNat * 2 ^ 16 := by
  unfold upperImm
  rw [BitVec.toNat_cast, BitVec.toNat_append, BitVec.toNat_ofNat, Nat.zero_mod, Nat.or_zero, Nat.shiftLeft_eq]

/-- Settles O9: each of the eight is an `answerReg`; the word operations act bit by bit, on the immediate's bits too. -/
theorem logicalResults : Obligations.LogicalResults := by
  intro f g s
  refine ⟨⟨decode_encode (.and f), onlyReg_of_answerReg rfl ?_⟩, ⟨decode_encode (.or f), onlyReg_of_answerReg rfl ?_⟩,
    ⟨decode_encode (.xor f), onlyReg_of_answerReg rfl ?_⟩, ⟨decode_encode (.nor f), onlyReg_of_answerReg rfl ?_⟩,
    ⟨decode_encode (.andi g), onlyReg_of_answerReg rfl ?_⟩, ⟨decode_encode (.ori g), onlyReg_of_answerReg rfl ?_⟩,
    ⟨decode_encode (.xori g), onlyReg_of_answerReg rfl ?_⟩,
    ⟨decode_encode (.lui g), onlyReg_of_answerReg rfl (upperImm_toNat g.imm16)⟩⟩ <;> intro k hk
  · exact BitVec.getLsbD_and
  · exact BitVec.getLsbD_or
  · exact BitVec.getLsbD_xor
  · rw [BitVec.getLsbD_not, BitVec.getLsbD_or, decide_eq_true hk, Bool.true_and]
  · rw [BitVec.getLsbD_and, getLsbD_logicalImm _ hk]
  · rw [BitVec.getLsbD_or, getLsbD_logicalImm _ hk]
  · rw [BitVec.getLsbD_xor, getLsbD_logicalImm _ hk]

end Sys2Proof.Machine
end

section
/-! Shifts and signed comparison (42_shift_compare.md R130 to R136): each of the five answers by writing one word to one
register; the shifts are arithmetic by library laws, and the comparison word is an `if` on the exact integers. -/

namespace Sys2Proof.Machine

/-- A left shift multiplies by a power of two and drops what passes bit 31 (R131). -/
theorem shiftLeft_toNat_eq_mul_pow (a : Word) (n : Nat) : (a <<< n).toNat = a.toNat * 2 ^ n % 2 ^ 32 := by
  rw [BitVec.toNat_shiftLeft, Nat.shiftLeft_eq]

theorem ushiftRight_toNat_eq_div_pow (a : Word) (n : Nat) : (a >>> n).toNat = a.toNat / 2 ^ n := by
  rw [BitVec.toNat_ushiftRight, Nat.shiftRight_eq_div_pow]

/-- Copies of bit 31 entering at the top make the signed division by a power of two round toward minus infinity (R133). -/
theorem sshiftRight_toInt_eq_div_pow (a : Word) (n : Nat) : (a.sshiftRight n).toInt = a.toInt / 2 ^ n := by
  rw [BitVec.toInt_sshiftRight, Int.shiftRight_eq_div_pow, Nat.cast_pow, Nat.cast_ofNat]

/-- The word of a signed comparison (R134). -/
theorem setWord_lessSigned (a b : Word) :
    setWord (lessSigned a b) = if a.toInt < b.toInt then 1#32 else 0#32 := by
  simp only [setWord, lessSigned, decide_eq_true_eq]

/-- Settles O10: each shift is an `answerReg` of the shifted word, whose value is a product or a quotient by a power of
two; for SRA the integer quotient by a positive number is the floor. -/
theorem shiftResults : Obligations.ShiftResults := by
  intro f s
  refine ⟨⟨decode_encode (.sll f), ?_⟩, ⟨decode_encode (.srl f), ?_⟩, ⟨decode_encode (.sra f), ?_⟩⟩
  · exact onlyReg_of_answerReg rfl (shiftLeft_toNat_eq_mul_pow (s.x f.rt) f.shamt.toNat)
  · exact onlyReg_of_answerReg rfl (ushiftRight_toNat_eq_div_pow (s.x f.rt) f.shamt.toNat)
  · exact onlyReg_of_answerReg rfl (sshiftRight_toInt_eq_div_pow (s.x f.rt) f.shamt.toNat)

/-- Settles O11: both are an `answerReg` of the comparison word, and sign extension keeps the value of SLTI's immediate. -/
theorem compareResults : Obligations.CompareResults := by
  intro f g s
  refine ⟨⟨decode_encode (.slt f), ?_⟩, ⟨decode_encode (.slti g), ?_⟩⟩
  · rw [← setWord_lessSigned]
    exact answerReg_spec s f.rd _
  · rw [← signedImm_toInt, ← setWord_lessSigned]
    exact answerReg_spec s g.rt _

end Sys2Proof.Machine
end

section
/-! Multiply, divide and the HI/LO moves (43_muldiv_hilo.md R140 to R149): the halves of a 64-bit product make up the exact
product again, the quotient of the spec's pseudocode is the truncating one of the library, and no remainder and, but for one
pair, no quotient is cut by 32 bits. -/

namespace Sys2Proof.Machine

/-! ### The answers -/

/-- An instruction that answers by writing `h` to HI and `l` to LO completes, changes only those and the pc, and what is
known of `h` and `l` is known of the values written. -/
theorem onlyHiLo_of_answerHiLo {i : Instr} {s : State} {h l : Word} (e : exec i s = answerHiLo s h l)
    {P : Word → Word → Prop} (hp : P h l) : ∃ t h' l', exec i s = .next t ∧ OnlyHiLo s t h' l' ∧ P h' l' := by
  obtain ⟨t, ht, honly⟩ := answerHiLo_spec s h l
  exact ⟨t, h, l, e.trans ht, honly, hp⟩

/-- A divide by zero completes and leaves only its record, which holds the instruction's word (60_exceptions.md R202). -/
theorem onlyRecord_of_divZero {i : Instr} {s : State} {d : RegNum} (hd : i.divisor = some d) (hz : s.x d = 0#32) :
    ∃ t, exec i s = .next t ∧ OnlyRecord s t (.arithmeticFault s.current.pc (encode i)) := by
  rw [exec_divZero hd hz]
  exact answerDivZero_spec s (encode i)

/-- With a divisor other than 0, DIV answers with the remainder in HI and the quotient in LO (R143). -/
theorem exec_div_of_ne_zero {f : RType} {s : State} (hz : s.x f.rt ≠ 0#32) : exec (.div f) s =
    answerHiLo s (signedRemainder (s.x f.rs) (s.x f.rt)) (signedQuotient (s.x f.rs) (s.x f.rt)) := if_neg hz

/-- With a divisor other than 0, DIVU answers with the remainder in HI and the quotient in LO (R143). -/
theorem exec_divu_of_ne_zero {f : RType} {s : State} (hz : s.x f.rt ≠ 0#32) : exec (.divu f) s =
    answerHiLo s (unsignedRemainder (s.x f.rs) (s.x f.rt)) (unsignedQuotient (s.x f.rs) (s.x f.rt)) := if_neg hz

/-! ### Products (R140 to R142) -/

theorem high_append_low (p : BitVec 64) : p.extractLsb' 32 32 ++ p.extractLsb' 0 32 = p :=
  (BitVec.extractLsb'_append_extractLsb'_eq_extractLsb' rfl).trans BitVec.extractLsb'_eq_self

/-- HI read as signed: the two halves are the signed value of the product word. -/
theorem high_toInt_add_low (p : BitVec 64) :
    (p.extractLsb' 32 32).toInt * 2 ^ 32 + ((p.extractLsb' 0 32).toNat : Int) = p.toInt := by
  conv_rhs => rw [← high_append_low p, BitVec.toInt_append]
  rw [if_neg (by decide), Int.mul_comm]

/-- HI read as unsigned: the two halves are the unsigned value of the product word. -/
theorem high_toNat_add_low (p : BitVec 64) :
    (p.extractLsb' 32 32).toNat * 2 ^ 32 + (p.extractLsb' 0 32).toNat = p.toNat := by
  conv_rhs => rw [← high_append_low p, BitVec.toNat_append]
  rw [← Nat.shiftLeft_eq, Nat.shiftLeft_add_eq_or_of_lt (BitVec.isLt _)]

/-- The signed product of two words fits 64 bits, `(-2^31) * (-2^31) = 2^62` included. -/
theorem signedProduct_toInt (a b : Word) : (signedProduct a b).toInt = a.toInt * b.toInt := by
  have upper := BitVec.toInt_mul_toInt_le (x := a) (y := b)
  have lower := BitVec.le_toInt_mul_toInt (x := a) (y := b)
  rw [signedProduct, BitVec.toInt_ofInt_eq_self] <;> omega

theorem unsignedProduct_toNat (a b : Word) : (unsignedProduct a b).toNat = a.toNat * b.toNat := by
  have fits : a.toNat * b.toNat < 2 ^ 64 := BitVec.toNat_mul_toNat_lt (x := a) (y := b)
  rw [unsignedProduct, BitVec.toNat_ofNat, Nat.mod_eq_of_lt fits]

/-- Settles O12: both answer with the halves of a 64-bit product, and no product of two words is cut by 64 bits. -/
theorem multiplyResults : Obligations.MultiplyResults := by
  intro f s
  refine ⟨⟨decode_encode (.mult f), ?_⟩, ⟨decode_encode (.multu f), ?_⟩⟩
  · exact onlyHiLo_of_answerHiLo rfl ((high_toInt_add_low _).trans (signedProduct_toInt (s.x f.rs) (s.x f.rt)))
  · exact onlyHiLo_of_answerHiLo rfl ((high_toNat_add_low _).trans (unsignedProduct_toNat (s.x f.rs) (s.x f.rt)))

/-! ### Signed division (R143, R144) -/

/-- The quotient of the spec's pseudocode is the library's, which truncates toward zero: their signs and their sizes
agree. -/
theorem truncatedQuotient_eq_tdiv (a b : Int) : truncatedQuotient a b = a.tdiv b := by
  rw [truncatedQuotient, ← Int.sign_mul_natAbs (a.tdiv b), Int.sign_tdiv, Int.natAbs_tdiv]
  split
  · next h => simp [Nat.div_eq_of_lt h]
  · rfl

theorem signedQuotient_eq_ofInt (a b : Word) : signedQuotient a b = BitVec.ofInt 32 (a.toInt.tdiv b.toInt) := by
  rw [signedQuotient, truncatedQuotient_eq_tdiv]

theorem signedRemainder_eq_ofInt (a b : Word) : signedRemainder a b = BitVec.ofInt 32 (a.toInt.tmod b.toInt) := by
  rw [signedRemainder, truncatedQuotient_eq_tdiv, Int.mul_comm, ← Int.tmod_def]

/-- The remainder always fits 32 bits. -/
theorem signedRemainder_toInt (a b : Word) : (signedRemainder a b).toInt = a.toInt.tmod b.toInt := by
  rw [signedRemainder_eq_ofInt, ← BitVec.toInt_srem, BitVec.ofInt_toInt]

/-- The quotient fits 32 bits but for -2^31 divided by -1. -/
theorem signedQuotient_toInt {a b : Word} (h : ¬(a = 0x80000000#32 ∧ b = 0xFFFFFFFF#32)) :
    (signedQuotient a b).toInt = a.toInt.tdiv b.toInt := by
  rw [signedQuotient_eq_ofInt, ← BitVec.toInt_sdiv_of_ne_or_ne a b (not_and_or.1 h), BitVec.ofInt_toInt]

/-- -2^31 divided by -1 wraps (decision D7). -/
theorem signedDivision_wraps : signedQuotient 0x80000000#32 0xFFFFFFFF#32 = 0x80000000#32 ∧
    signedRemainder 0x80000000#32 0xFFFFFFFF#32 = 0#32 := by decide

/-- The division law of R143 for every other pair. -/
theorem signedDivision_law {a b : Word} (hb : b ≠ 0#32) (h : ¬(a = 0x80000000#32 ∧ b = 0xFFFFFFFF#32)) :
    a.toInt = (signedQuotient a b).toInt * b.toInt + (signedRemainder a b).toInt ∧
    (signedRemainder a b).toInt.natAbs < b.toInt.natAbs ∧
    ((signedRemainder a b).toInt = 0 ∨ (signedRemainder a b).toInt.sign = a.toInt.sign) := by
  rw [signedQuotient_toInt h, signedRemainder_toInt]
  refine ⟨(Int.tdiv_mul_add_tmod ..).symm, ?_, ?_⟩
  · have hpos : 0 < b.toInt.natAbs := Int.natAbs_pos.2 fun h0 => hb (BitVec.eq_of_toInt_eq h0)
    rw [Int.natAbs_tmod]
    exact Nat.mod_lt _ hpos
  · by_cases hdvd : b.toInt ∣ a.toInt
    · exact .inl (Int.tmod_eq_zero_of_dvd hdvd)
    · exact .inr (by rw [Int.sign_tmod, if_neg hdvd])

/-- Settles O13: DIV answers by its divisor alone, with the record or with the truncated quotient and its remainder. -/
theorem signedDivideResult : Obligations.SignedDivideResult := by
  intro f s
  refine ⟨decode_encode (.div f), fun hz => onlyRecord_of_divZero (i := .div f) rfl hz, fun hz => ?_⟩
  refine onlyHiLo_of_answerHiLo (exec_div_of_ne_zero hz)
    ⟨signedQuotient_eq_ofInt .., signedRemainder_eq_ofInt .., fun ha hb => ?_, signedDivision_law hz⟩
  rw [ha, hb]
  exact signedDivision_wraps

/-! ### Unsigned division (R143, R145) -/

theorem unsignedQuotient_toNat (a b : Word) : (unsignedQuotient a b).toNat = a.toNat / b.toNat := by
  rw [unsignedQuotient, BitVec.toNat_ofNat, Nat.mod_eq_of_lt ((Nat.div_le_self ..).trans_lt a.isLt)]

theorem unsignedRemainder_toNat (a b : Word) : (unsignedRemainder a b).toNat = a.toNat % b.toNat := by
  rw [unsignedRemainder, BitVec.toNat_ofNat, Nat.mod_eq_of_lt ((Nat.mod_le ..).trans_lt a.isLt)]

/-- Settles O14: DIVU answers by its divisor alone, with the record or with quotient and remainder, which fit 32 bits. -/
theorem unsignedDivideResult : Obligations.UnsignedDivideResult :=
  fun f _ => ⟨decode_encode (.divu f), fun hz => onlyRecord_of_divZero (i := .divu f) rfl hz, fun hz =>
    onlyHiLo_of_answerHiLo (exec_divu_of_ne_zero hz) ⟨unsignedQuotient_toNat .., unsignedRemainder_toNat ..⟩⟩

/-! ### Moves (R146 to R149) -/

/-- Settles O15: the moves from HI and LO answer by writing a register, the moves to them write the other one back. -/
theorem hiLoMoveResults : Obligations.HiLoMoveResults :=
  fun f s => ⟨⟨decode_encode (.mfhi f), answerReg_spec s f.rd _⟩, ⟨decode_encode (.mthi f), answerHiLo_spec s _ _⟩,
    ⟨decode_encode (.mflo f), answerReg_spec s f.rd _⟩, ⟨decode_encode (.mtlo f), answerHiLo_spec s _ _⟩⟩

end Sys2Proof.Machine
end

section
/-! Loads and stores (44_load_store.md R155 to R161): each load answers by writing the extended bus value to one register,
each store by one bus write; what is left to say is the value of the bytes read, and that every store writes the low bytes of
its source register. -/

namespace Sys2Proof.Machine

theorem effectiveAddress_eq_ofInt (s : State) (f : IType) :
    effectiveAddress s f = BitVec.ofInt 32 ((s.x f.rs).toInt + f.imm16.toInt) :=
  add_signedImm_eq_ofInt (s.x f.rs) f.imm16

/-! ### Loads (R156 to R158) -/

/-- Sign extension to a word keeps the signed value (30_encoding.md R88). -/
theorem sext32_toInt {w : Nat} (v : BitVec w) (hw : w ≤ 32) : (sext32 v).toInt = v.toInt :=
  BitVec.toInt_signExtend_of_le hw

/-- A word as the sum of its four bytes, least significant first. -/
theorem word_toNat_eq_sum (v : Word) : v.toNat = (byteOfWord v 0).toNat + 2 ^ 8 * (byteOfWord v 1).toNat +
    2 ^ 16 * (byteOfWord v 2).toNat + 2 ^ 24 * (byteOfWord v 3).toNat := by
  have := v.isLt
  simp only [byteOfWord_toNat]
  omega

section
variable {c : Config} {a : Word} (m : Memory)

theorem memRead1_unmapped (h : mapped4 c a = false) : memRead1 c m a = 0#8 := by
  rw [memRead1, read32_unmapped m h]; rfl

theorem memRead2_unmapped (h : mapped4 c a = false) : memRead2 c m a = 0#16 := by
  rw [memRead2, read32_unmapped m h]; rfl

/-- The halfword at `a` is signed by its high byte. -/
theorem memRead2_toInt (h : mapped4 c a = true) :
    (memRead2 c m a).toInt = (m.byte (a.toNat + 1)).toInt * 2 ^ 8 + (m.byte a.toNat).toNat := by
  have halves : memRead2 c m a = m.byte (a.toNat + 1) ++ m.byte a.toNat := by
    refine BitVec.eq_of_toNat_eq ?_
    rw [memRead2_toNat m h, BitVec.toNat_append, ← Nat.shiftLeft_add_eq_or_of_lt (BitVec.isLt _), Nat.shiftLeft_eq,
      Nat.add_comm, Nat.mul_comm]
  rw [halves, BitVec.toInt_append, if_neg (by decide), Int.mul_comm]

theorem memRead4_toNat (h : mapped4 c a = true) :
    (memRead4 c m a).toNat = (m.byte a.toNat).toNat + 2 ^ 8 * (m.byte (a.toNat + 1)).toNat +
      2 ^ 16 * (m.byte (a.toNat + 2)).toNat + 2 ^ 24 * (m.byte (a.toNat + 3)).toNat := by
  rw [memRead4, word_toNat_eq_sum, byteOfWord_read32 m h (by decide), byteOfWord_read32 m h (by decide),
    byteOfWord_read32 m h (by decide), byteOfWord_read32 m h (by decide), Nat.add_zero]

end

/-- Settles O16: each load is an `answerReg` of the value read, which sign extension keeps; an access that is not admitted
reads as 0. -/
theorem loadResults : Obligations.LoadResults := by
  intro f s
  refine ⟨effectiveAddress_eq_ofInt s f,
    ⟨decode_encode (.lb f), onlyReg_of_answerReg rfl ⟨fun h => ?_, fun h => ?_⟩⟩,
    ⟨decode_encode (.lh f), onlyReg_of_answerReg rfl ⟨fun h => ?_, fun h => ?_⟩⟩,
    ⟨decode_encode (.lw f), onlyReg_of_answerReg rfl ⟨memRead4_toNat s.mem, read32_unmapped s.mem⟩⟩⟩
  · rw [sext32_toInt _ (by decide), memRead1_mapped s.mem h]
  · rw [memRead1_unmapped s.mem h]; rfl
  · rw [sext32_toInt _ (by decide), memRead2_toInt s.mem h]
  · rw [memRead2_unmapped s.mem h]; rfl

/-! ### Stores (R159 to R161) -/

/-- The low `j` bytes of `v` stored at `a` by read-modify-write (20_memory.md R57): those bytes and no other change. -/
theorem byte_write32_lowBytes {c : Config} {m : Memory} {a : Word} (hm : Memory.wf m) (h : mapped4 c a = true)
    (v : Word) {r j : Nat} (e : r + 8 * j = 32) (b : Nat) :
    (write32 c m a (((read32 c m a).extractLsb' (8 * j) r ++ v.extractLsb' 0 (8 * j)).cast e)).byte b =
      if a.toNat ≤ b ∧ b < a.toNat + j then byteOfWord v (b - a.toNat) else m.byte b := by
  rw [byte_write32_replaceLow hm h (v.extractLsb' 0 (8 * j)) e rfl]
  split
  · exact BitVec.extractLsb'_extractLsb'_of_le (by omega)
  · rfl

theorem byte_memWrite1_low {c : Config} {m : Memory} {a : Word} (hm : Memory.wf m) (v : Word) (h : mapped4 c a = true)
    (b : Nat) : (memWrite1 c m a (v.extractLsb' 0 8)).byte b =
      if a.toNat ≤ b ∧ b < a.toNat + 1 then byteOfWord v (b - a.toNat) else m.byte b :=
  byte_write32_lowBytes (j := 1) (r := 24) hm h v rfl b

theorem byte_memWrite2_low {c : Config} {m : Memory} {a : Word} (hm : Memory.wf m) (v : Word) (h : mapped4 c a = true)
    (b : Nat) : (memWrite2 c m a (v.extractLsb' 0 16)).byte b =
      if a.toNat ≤ b ∧ b < a.toNat + 2 then byteOfWord v (b - a.toNat) else m.byte b :=
  byte_write32_lowBytes (j := 2) (r := 16) hm h v rfl b

/-- A store completes, and changes only the pc and, where the access is admitted, the `n` bytes at its effective
address, which become the low ones of the source register. -/
theorem onlyBytes_of_answerMem {i : Instr} {f : IType} {s : State} {m : Memory} {n : Nat} (e : exec i s = answerMem s m)
    (admitted : mapped4 s.config (effectiveAddress s f) = true → ∀ b, m.byte b =
      if (effectiveAddress s f).toNat ≤ b ∧ b < (effectiveAddress s f).toNat + n
      then byteOfWord (s.x f.rt) (b - (effectiveAddress s f).toNat) else s.mem.byte b)
    (dropped : mapped4 s.config (effectiveAddress s f) = false → m = s.mem) :
    ∃ t, exec i s = .next t ∧
      (mapped4 s.config (effectiveAddress s f) = true → OnlyBytes s t (effectiveAddress s f).toNat n ∧
        ∀ k < n, (t.mem.byte ((effectiveAddress s f).toNat + k)).toNat = (s.x f.rt).toNat / 2 ^ (8 * k) % 2 ^ 8) ∧
      (mapped4 s.config (effectiveAddress s f) = false → OnlyBytes s t (effectiveAddress s f).toNat 0) := by
  obtain ⟨t, ht, rfl, hregs, hpc, hhiLo, hcontrol⟩ := answerMem_spec s m
  refine ⟨t, e.trans ht, fun h => ⟨⟨fun b hb => ?_, hregs, hpc, hhiLo, hcontrol⟩, fun k hk => ?_⟩,
    fun h => ⟨fun b _ => ?_, hregs, hpc, hhiLo, hcontrol⟩⟩
  · rw [admitted h, if_neg (by omega)]
  · rw [admitted h, if_pos (by omega), Nat.add_sub_cancel_left, byteOfWord_toNat]
  · rw [dropped h]

/-- Settles O17: each store is an `answerMem` of one bus write, which sets the low bytes of the word at the effective address
to those of the source register, or is dropped. -/
theorem storeResults : Obligations.StoreResults := by
  intro f s hm
  refine ⟨effectiveAddress_eq_ofInt s f, ⟨decode_encode (.sb f), ?_⟩,
    ⟨decode_encode (.sh f), onlyBytes_of_answerMem rfl (byte_memWrite2_low hm (s.x f.rt)) (write32_unmapped s.mem _)⟩,
    ⟨decode_encode (.sw f), onlyBytes_of_answerMem rfl (byte_write32 hm (s.x f.rt)) (write32_unmapped s.mem _)⟩⟩
  obtain ⟨t, ht, hstored, hdropped⟩ := onlyBytes_of_answerMem (i := .sb f) rfl (byte_memWrite1_low hm (s.x f.rt))
    (write32_unmapped s.mem _)
  refine ⟨t, ht, fun h => ?_, hdropped⟩
  obtain ⟨honly, hbytes⟩ := hstored h
  exact ⟨honly, by simpa using hbytes 0 (by decide)⟩

end Sys2Proof.Machine
end

section
/-! Branches and jumps (45_branch_jump.md R170 to R181): a branch answers with its target exactly when its condition holds, a
jump always, a link beside it; what is left to say is the targets as numbers and the sign tests as bit 31. -/

namespace Sys2Proof.Machine

/-! ### Targets (R170, R177) -/

/-- The branch target as a number: the offset counts words from the instruction after the branch. -/
theorem branchTarget_eq_ofInt (pc : Word) (imm : BitVec 16) :
    branchTarget pc imm = BitVec.ofInt 32 (pc.toNat + 4 + imm.toInt * 4) := by
  have offset : sext32 imm <<< 2 = BitVec.ofInt 32 (imm.toInt * 4) := by
    rw [BitVec.shiftLeft_eq_mul_twoPow, BitVec.ofInt_mul]
    rfl
  rw [branchTarget, offset, BitVec.ofInt_add, BitVec.ofInt_add, BitVec.ofInt_natCast, BitVec.ofNat_toNat,
    BitVec.setWidth_eq]
  rfl

theorem getLsbD_topFourMask {k : Nat} (hk : k < 32) : (0xF0000000#32).getLsbD k = decide (28 ≤ k) := by
  interval_cases k <;> rfl

/-- The jump target by masks: bits 28 to 31 from the jump's own pc, bits 2 to 27 from the field, bits 0 and 1 zero. -/
theorem jumpTarget_eq_or (pc : Word) (target : BitVec 26) :
    jumpTarget pc target = (pc &&& 0xF0000000#32) ||| (target.zeroExtend 32 <<< 2) := by
  refine BitVec.eq_of_getLsbD_eq fun k hk => ?_
  rw [BitVec.getLsbD_or, BitVec.getLsbD_and, getLsbD_topFourMask hk, BitVec.getLsbD_shiftLeft, BitVec.getLsbD_setWidth,
    jumpTarget, BitVec.getLsbD_cast, BitVec.getLsbD_append, BitVec.getLsbD_append, BitVec.getLsbD_extractLsb']
  split_ifs with hlow hfield
  · simp [hlow, show ¬ 28 ≤ k by omega]
  · simp [hlow, hk, show ¬ 28 ≤ k by omega, show k - 2 < 32 by omega]
  · have pastField : target.getLsbD (k - 2) = false := BitVec.getLsbD_of_ge target (k - 2) (by omega)
    simp [pastField, show 28 + (k - 2 - 26) = k by omega, show k - 2 - 26 < 4 by omega, show 28 ≤ k by omega]

/-! ### Branches (R171 to R176) -/

/-- A branch whose test is true exactly when `p` holds completes, and changes only the pc. -/
theorem onlyPc_of_answerBranch {i : Instr} {s : State} {taken : Bool} {imm : BitVec 16} {p : Prop} [Decidable p]
    (h : exec i s = answerBranch s taken (branchTarget s.current.pc imm)) (hp : taken = true ↔ p) :
    ∃ t, exec i s = .next t ∧ OnlyPc s t
      (if p then BitVec.ofInt 32 (s.current.pc.toNat + 4 + imm.toInt * 4) else s.current.pc + 4#32) := by
  obtain ⟨t, ht, honly⟩ := answerBranch_spec s taken (branchTarget s.current.pc imm)
  simp only [hp, branchTarget_eq_ofInt] at honly
  exact ⟨t, h.trans ht, honly⟩

/-- The sign test for negative is bit 31. -/
theorem condLtz_eq_bit31 (a : Word) : condLtz a = a.getLsbD 31 := BitVec.msb_eq_toInt.symm

theorem condGez_eq_not_condLtz (a : Word) : condGez a = !condLtz a := by
  rw [condGez, condLtz, ← decide_not, decide_eq_decide, Int.not_lt]

/-- Settles O18: each of the six is an `answerBranch` whose test decides its condition; a register is negative exactly when
its bit 31 is set. -/
theorem branchResults : Obligations.BranchResults := by
  intro f g s
  refine ⟨⟨decode_encode (.beq f), ?_⟩, ⟨decode_encode (.bne f), ?_⟩, ⟨decode_encode (.blez f), ?_⟩,
    ⟨decode_encode (.bgtz f), ?_⟩, ⟨decode_encode (.bltz g), ?_⟩, ⟨decode_encode (.bgez g), ?_⟩⟩
  · exact onlyPc_of_answerBranch rfl decide_eq_true_iff
  · exact onlyPc_of_answerBranch rfl decide_eq_true_iff
  · exact onlyPc_of_answerBranch rfl decide_eq_true_iff
  · exact onlyPc_of_answerBranch rfl decide_eq_true_iff
  · exact onlyPc_of_answerBranch rfl (by rw [condLtz_eq_bit31])
  · exact onlyPc_of_answerBranch rfl (by rw [condGez_eq_not_condLtz, condLtz_eq_bit31, Bool.not_eq_true'])

/-! ### Jumps (R178 to R181) -/

/-- Settles O19: J and JR are an `answerBranch` that is taken, JAL and JALR an `answerLink`, whose target is read before the
link is written. -/
theorem jumpResults : Obligations.JumpResults := by
  intro f g s
  rw [← jumpTarget_eq_or]
  exact ⟨⟨decode_encode (.j f), answerBranch_spec s true _⟩, ⟨decode_encode (.jal f), answerLink_spec s _ _ _⟩,
    ⟨decode_encode (.jr g), answerBranch_spec s true _⟩, ⟨decode_encode (.jalr g), answerLink_spec s g.rd _ _⟩⟩

end Sys2Proof.Machine
end

section
/-! SYSCALL (46_system.md R190): what any instruction keeps that writes no register, HI or LO, is no branch and does not
divide, and Status beside it. -/

namespace Sys2Proof.Machine

theorem exec_syscall_mem {f : RType} {s t : State} (h : exec (.syscall f) s = .next t) : t.mem = s.mem := by
  obtain rfl := Host.Outcome.next.inj h
  rfl

/-- Unlike `exec_halted_iff`, this holds from any Status (46_system.md R190). -/
theorem exec_syscall_status {f : RType} {s t : State} (h : exec (.syscall f) s = .next t) :
    t.status = if s.x 2#5 = 10#32 then .halted else s.status := by
  obtain rfl := Host.Outcome.next.inj h
  simp [serviceReg]

/-- Settles O20: the frame is what every instruction without destination, HI, LO, branch or divisor keeps; Status turns on
the whole of register 2. -/
theorem syscallResult : Obligations.SyscallResult := by
  intro f s
  obtain ⟨t, ht⟩ := exec_answers_next (.syscall f) s
  obtain ⟨hiKept, loKept⟩ := exec_next_hiLo ht
  have regsKept : RegsKept s t := fun _ => exec_next_cell ht (.inl nofun)
  have bytesKept : BytesKept s t := fun a => by rw [exec_syscall_mem ht]
  refine ⟨decode_encode (.syscall f), t, ht, regsKept, exec_next_pc ht rfl, ⟨hiKept rfl, loKept rfl⟩, bytesKept,
    exec_cycleKept ht, exec_faultLog_of_no_divZero ht nofun, ?_⟩
  rw [exec_syscall_status ht]
  exact if_congr BitVec.toNat_inj.symm rfl rfl

end Sys2Proof.Machine
end

section
/-! Faults and Halted (60_exceptions.md R201, R206, R212): an Unsupported word is the one fault that halts, and Halted is
terminal. -/

namespace Sys2Proof.Machine

/-- A fault that an instruction records is never fatal: only SYSCALL changes Status, and SYSCALL records nothing
(60_exceptions.md R202). -/
theorem exec_status_of_faultLog_ne {i : Instr} {s t : State} (h : exec i s = .next t) (hlog : t.faultLog ≠ s.faultLog) :
    t.status = s.status := by
  refine exec_status_of_ne_syscall h ?_
  rintro f rfl
  exact hlog (exec_faultLog_of_no_divZero h nofun)

/-- Settles O35: the Unsupported outcome is `raiseUnimplemented` of the fetched word, and it is Halted; an executed
instruction that records a fault keeps Status. -/
theorem unsupportedWordHaltsWithoutCommit : Obligations.UnsupportedWordHaltsWithoutCommit := by
  refine ⟨fun s u hs hu => ?_, fun s t i hs hi h hlog => ?_⟩
  · obtain rfl := decode_error_eq hu
    exact ⟨_, step_of_error hs hu, rfl, step_of_halted rfl⟩
  · obtain ⟨v, hv, rfl⟩ := step_eq_commit hs hi h
    exact (exec_status_of_faultLog_ne hv hlog).trans hs

/-- Settles O37: a step of a Halted machine is idle, and so is a run, which checks Status first. -/
theorem haltedIsTerminal : Obligations.HaltedIsTerminal :=
  fun _ hs => ⟨step_of_halted hs, runFor_of_halted hs⟩

end Sys2Proof.Machine
end

section
/-! No hazard on HI and LO, and reset (70_reset_and_hazards.md R230, R231, R242). -/

namespace Sys2Proof.Machine

/-- A register other than 0 reads as what was written to it. -/
theorem RegWritten.reg_eq {s t : State} {d : RegNum} {v : Word} (h : RegWritten s t d v) (hd : d ≠ 0#5) :
    t.next.reg d = v := by
  rw [Arch.reg_of_ne_zero _ hd, h d, if_pos ⟨rfl, hd⟩]

/-- Settles O42: commit makes the HI and LO of the product those that the moves read. -/
theorem productIsReadByTheNextInstruction : Obligations.ProductIsReadByTheNextInstruction := by
  intro f g s hrd
  obtain ⟨⟨-, t, hi, lo, ht, hproduct, hexact⟩, -⟩ := multiplyResults f s
  obtain ⟨⟨-, v, hv, hmfhi⟩, -, ⟨-, u, hu, hmflo⟩, -⟩ := hiLoMoveResults g (commit t)
  have readHi : v.next.reg g.rd = hi := (hmfhi.regs.reg_eq hrd).trans hproduct.hi
  have readLo : u.next.reg g.rd = lo := (hmflo.regs.reg_eq hrd).trans hproduct.lo
  refine ⟨t, u, v, ht, hu, hv, ?_⟩
  rw [readHi, readLo]
  exact hexact

/-- No host action changes the parameters (00_scope.md R6, log entry 1). -/
theorem act_config {h : HostAction} {s t : State} (ht : h.act s = .next t) : t.config = s.config := by
  cases h with
  | step => exact step_config ht
  | runFor n =>
    have stepKeeps : ∀ u v : State, u.config = s.config → step u = .next v → v.config = s.config :=
      fun _ _ hu hstep => (step_config hstep).trans hu
    exact runFor_induct stepKeeps n rfl ht
  | setRegister | setHi | setLo | reset =>
    obtain rfl := Host.Outcome.next.inj ht
    rfl

/-- A sequence of host actions that answers: its first action answers, and so does the rest from there. -/
theorem runActions_cons {h : HostAction} {hs : List HostAction} {s t : State} (ht : runActions (h :: hs) s = .next t) :
    ∃ u, h.act s = .next u ∧ runActions hs u = .next t := by
  rw [runActions] at ht
  split at ht
  · next u hu => exact ⟨u, hu, ht⟩
  · cases ht
  · cases ht

theorem runActions_config {hs : List HostAction} {s t : State} (ht : runActions hs s = .next t) :
    t.config = s.config := by
  induction hs generalizing s with
  | nil =>
    obtain rfl := Host.Outcome.next.inj ht
    rfl
  | cons h hs ih =>
    obtain ⟨u, hu, hrest⟩ := runActions_cons ht
    exact (ih hrest).trans (act_config hu)

/-- Settles O44: reset reads nothing but the parameters, and these are what every host action keeps. -/
theorem resetForgetsEverything : Obligations.ResetForgetsEverything :=
  fun _ _ _ ht => congrArg State.boot (runActions_config ht)

end Sys2Proof.Machine
end
